-- ==== Sys2Proof/Word.lean ====
section
/-! DEFINITION. The two word types of the block: a register and a command are 32 bits (10_state.md R22, 30_encoding.md R85), a buffer
unit is one byte (00_scope.md R9, 20_memory.md R66). -/

namespace Sys2Proof

/-- 8 bits (R9). -/
abbrev Byte := BitVec 8

/-- A register or a command word: 32 bits (R22, R85). -/
abbrev Word := BitVec 32

end Sys2Proof
end

