-- ==== Sys2Proof/Syntax.lean ====
section
/-! DEFINITION. The commands of the block, one constructor per row of spec/opcode_table.json (30_encoding.md R86). No command has an
operand field (R87). -/

namespace Sys2Proof

/-- The opcode map (R86). -/
inductive Instr where
  /-- OP 0x0, control (43_control.md R161). -/
  | nop
  /-- OP 0x1, Color Reducer (40_color_reducer.md R104). -/
  | reduce
  /-- OP 0x2, Tint Shader (41_tint_shader.md R122). -/
  | tint
  /-- OP 0x3, Frame Encoder (42_frame_encoder.md R142). -/
  | encode
deriving DecidableEq, Repr

end Sys2Proof
end

