-- ==== Sys2Proof/WellFormed.lean ====
section
/-! DEFINITION. When a command word names a command (30_encoding.md R85 to R88), in plain arithmetic on its value; and the (empty) check
of a command's operands. -/

namespace Sys2Proof

/-- RSVD, bits [31:4], is 0 (R85, R88). -/
def CmdWord.reservedZero (v : Word) : Bool := v.toNat / 16 == 0

/-- OP, bits [3:0], is one of the four codes of R86. -/
def CmdWord.opNamed (v : Word) : Bool := v.toNat % 16 < 4

/-- The word names a command: it is not illegal in the sense of R88. -/
def CmdWord.wf (v : Word) : Bool := CmdWord.reservedZero v && CmdWord.opNamed v

/-- A command's operands are in range: no command word has an operand field or an immediate (R87), so there is nothing to check. -/
def Instr.wf (i : Instr) : Bool :=
  match i with
  | .nop => true
  | .reduce => true
  | .tint => true
  | .encode => true

end Sys2Proof
end

