-- ==== Sys2Proof/Decode.lean ====
section
/-! DEFINITION. The decoder of a CMD value, total on 32-bit words and rejecting by name (30_encoding.md R85, R86, R88), the encoder from
the same map, and the two readings of a row of spec/opcode_table.json that the host asks for. -/

namespace Sys2Proof

/-- Why a CMD value is illegal (R88); the block reports both as IllegalCommand. -/
inductive DecodeReject where
  /-- RSVD = v[31:4] is not 0. -/
  | reservedBits
  /-- RSVD is 0 and OP = v[3:0] is 0x4 or more. -/
  | opcode
deriving DecidableEq, Repr

/-- OP = v[3:0] (R85). -/
def cmdOp (v : Word) : BitVec 4 := v.extractLsb' 0 4

/-- RSVD = v[31:4] (R85). -/
def cmdRsvd (v : Word) : BitVec 28 := v.extractLsb' 4 28

/-- The command a CMD value names, or why it names none (R86, R88). -/
def decode (v : Word) : Except DecodeReject Instr :=
  if cmdRsvd v = 0 then
    match (cmdOp v).toNat with
    | 0 => .ok .nop
    | 1 => .ok .reduce
    | 2 => .ok .tint
    | 3 => .ok .encode
    | _ => .error .opcode
  else .error .reservedBits

/-- The OP code of a command (R86). -/
def opCode (i : Instr) : BitVec 4 :=
  match i with
  | .nop => 0x0
  | .reduce => 0x1
  | .tint => 0x2
  | .encode => 0x3

/-- The command word of a command: its OP code under a zero RSVD (R85, R86). -/
def encode (i : Instr) : Word := (0 : BitVec 28) ++ opCode i

/-- The instruction whose bits are `w`, numbered as the opcode table numbers them: the first `nbits` bits of `w`, every bit above them
0. A command is one 32-bit register value (R85), so a value that needs more bits is none. -/
def decodeTableWord (nbits w : Nat) : Option Instr :=
  if w % 2 ^ nbits < 2 ^ 32 then
    match decode (BitVec.ofNat 32 (w % 2 ^ nbits)) with
    | .ok i => some i
    | .error _ => none
  else none

end Sys2Proof
end

