-- ==== Sys2Proof/Config.lean ====
section
/-! DEFINITION. What is fixed for a machine and is no state (10_state.md R20): the values the document fixes (00_scope.md R7), the
parameters it leaves open with their laws (R8), and the free constants those parameters are built from. -/

namespace Sys2Proof

/-- The four byte buffers (10_state.md section 3, 20_memory.md R60). -/
inductive Buffer where
  | src | gray | tout | txbuf
deriving DecidableEq, Repr

/-- The five address spaces of the block and no others (20_memory.md R60). -/
inductive Space where
  | reg
  | buf (b : Buffer)
deriving DecidableEq, Repr

/-- NATIVE_W, the display's width in pixels (R7). -/
def Config.nativeW : Nat := 128

/-- NATIVE_H, the display's height in pixels (R7). -/
def Config.nativeH : Nat := 32

/-- HDR, the constant frame-sync header (R7). -/
def Config.header : List Byte := [0x81, 0xC3, 0xE7, 0x00]

/-- TXBUF_LEN = 4 + NATIVE_W * NATIVE_H / 2 bytes (R7). -/
def Config.txbufLen : Nat := 4 + Config.nativeW * Config.nativeH / 2

/-- PLANE_LEN = NATIVE_W * NATIVE_H / 8 bytes (R7). -/
def Config.planeLen : Nat := Config.nativeW * Config.nativeH / 8

/-- The least MAX_PIXELS the spec admits (R8). -/
def Config.minPixels : Nat := 4096

/-- The greatest MAX_PIXELS the spec admits (R8). -/
def Config.mostPixels : Nat := 2 ^ 30

/-- The parameters R8 leaves open, each with the laws R8, R102 and R121 give it: a machine of this spec is any machine whose
parameters obey these laws. -/
structure Params where
  /-- MAX_PIXELS, the pixel capacity of SRC, GRAY and TOUT (R8, D17). -/
  maxPixels : Nat
  /-- LUMA_FN r g b (R8, R102, D10); total and in 0..255 by its type. -/
  lumaFn : Byte → Byte → Byte → Byte
  /-- TINT_MUL c t (R8, R121, D13); total and a natural number by its type. -/
  tintMul : Byte → Byte → Nat
  /-- TOUT_PAD, the fourth byte of a shaded pixel (R8, D14). -/
  toutPad : Byte
  /-- BASE_REG, BASE_SRC, BASE_GRAY, BASE_TOUT, BASE_TXBUF; no rule reads them (20_memory.md R72, D31). -/
  base : Space → Nat
  maxPixels_ge : Config.minPixels ≤ maxPixels
  maxPixels_le : maxPixels ≤ Config.mostPixels
  lumaFn_gray : ∀ v : Byte, lumaFn v v v = v
  tintMul_one : ∀ c : Byte, tintMul c 255 = c.toNat
  tintMul_zero : ∀ c : Byte, tintMul c 0 = 0

/-- By how much MAX_PIXELS exceeds its least value, before its upper bound is applied: open (R8, D17; log 1). -/
opaque Config.morePixels : Nat

/-- LUMA_FN on pixels that are not gray: open (R102, D10; log 1). -/
opaque Config.lumaColour : Byte → Byte → Byte → Byte

/-- TINT_MUL for components strictly between 0 and 255: open (R121, D13; log 1). -/
opaque Config.tintMulInner : Byte → Byte → Nat

/-- TOUT_PAD: open (R8, D14; log 1). -/
opaque Config.toutPad : Byte

/-- BASE_*: open, read by no rule (R72, D31; log 1). -/
opaque Config.base : Space → Nat

end Sys2Proof
end

