-- ==== Sys2Proof/Machine/State.lean ====
section
/-! DEFINITION. The state of the block as plain data (10_state.md R20), the reasons a step can stop, and the state after reset
(70_reset_and_hazards.md R201). -/

namespace Sys2Proof.Machine

/-- A buffer's written bytes: (address, byte) cells, addresses strictly rising (`Memory.wf`). An address that is not listed holds the
spec's unwritten byte (00_scope.md R11). -/
abbrev Memory := List Host.Cell

/-- The result codes of STATUS.ERR that a command can raise (60_exceptions.md R171). -/
inductive ErrCode where
  | dimensionMismatch
  | unsupportedFormat
  | inputNotValid
  | capacityExceeded
  | illegalCommand
deriving DecidableEq, Repr

/-- Why a host transaction is not admitted: the host has no step for it (20_memory.md R63, R64, R66, R68). -/
inductive NotAdmitted where
  /-- A register access of a width other than 32 (R63). -/
  | registerWidth
  /-- A register access at an offset that is not a multiple of 4 (R64). -/
  | registerAlign
  /-- A register access at an offset above 0xFC (R64). -/
  | registerRange
  /-- A buffer access of a width other than 8 (R66). -/
  | bufferWidth
  /-- A buffer access outside the buffer's range (R68). -/
  | bufferRange
  /-- Write data that does not fit the access's width: no such access exists (R62, R67). -/
  | dataWidth
deriving DecidableEq, Repr

/-- The faults: the machine stops. -/
inductive Fault where
  /-- The model fault UnwrittenRead(S, a) (00_scope.md R13). Raised by REDUCE reading an unwritten SRC byte and by a host read of an
  unwritten byte (60_exceptions.md R174), by TINT and ENCODE only in states no run reaches, and again by every step of a state that
  records it. Safe: the chip's behaviour there is not specified, and a stop proves nothing of it. -/
  | unwrittenRead (b : Buffer) (a : Nat)
deriving DecidableEq, Repr

/-- The refusals: the machine has no step. -/
inductive Refusal where
  /-- An instruction without a meaning yet, raised by exec's arms only. Safe: nothing can be proved of it. No arm answers so now. -/
  | notModelled (mnemonic : String)
  /-- A host transaction that is not admitted (R63, R64, R66, R68), raised by the step that meets it. Safe: the spec has no step there. -/
  | notAdmitted (why : NotAdmitted)
deriving DecidableEq, Repr

/-- One host transaction as 30_encoding.md R90 writes it: (space, address, width, data), without data for a read. -/
structure Transaction where
  space : Space
  addr : Nat
  width : Nat
  data : Option Nat
deriving DecidableEq, Repr

/-- The value a host read returns (20_memory.md R61, R65). -/
inductive Reply where
  | word (v : Word)
  | byte (v : Byte)
deriving DecidableEq, Repr

/-- What STATUS stores (10_state.md R24): its reserved bits store nothing and read 0. -/
structure Status where
  /-- STATUS[3:0] (R25). -/
  err : BitVec 4
  /-- STATUS[8] (R26). -/
  grayValid : Bool
  /-- STATUS[9] (R27). -/
  toutValid : Bool
  /-- STATUS[10] (R28). -/
  frameValid : Bool
deriving DecidableEq, Repr

/-- The architectural state (R20) and the bus as the block sees it. -/
structure State where
  /-- STATUS (R24). -/
  status : Status
  /-- SRC_FMT.FMT; the register's other bits store nothing (R29). -/
  srcFmt : Byte
  /-- SRC_DIM: W in [15:0], H in [31:16] (R30). -/
  srcDim : Word
  /-- TINT: R [7:0], G [15:8], B [23:16], A [31:24] (R31). -/
  tint : Word
  /-- GRAY_DIM (R32). -/
  grayDim : Word
  /-- TOUT_FMT.FMT; the register's other bits store nothing (R33). -/
  toutFmt : Byte
  /-- TOUT_DIM (R34). -/
  toutDim : Word
  /-- SRC (R40). -/
  src : Memory
  /-- GRAY (R41). -/
  gray : Memory
  /-- TOUT (R42). -/
  tout : Memory
  /-- The payload of TXBUF, bytes 4 to 2051; the header is hard-wired and stored nowhere (R43). -/
  txbuf : Memory
  /-- The model-fault record (00_scope.md R13): empty, or the fault of a faulted run. -/
  faultRecord : Option Fault
  /-- DESIGN CHOICE (log 3): the host's next transactions, first first; the model's own field. -/
  pending : List Transaction
  /-- DESIGN CHOICE (log 4): the values the host's reads returned, newest first; the model's own field. -/
  replies : List Reply
deriving DecidableEq, Repr

/-- The block right after reset (R201). -/
def State.reset : State where
  status := { err := 0, grayValid := false, toutValid := false, frameValid := false }
  srcFmt := 0
  srcDim := 0
  tint := 0
  grayDim := 0
  toutFmt := 0
  toutDim := 0
  src := []
  gray := []
  tout := []
  txbuf := []
  faultRecord := none
  pending := []
  replies := []

end Sys2Proof.Machine
end

