-- ==== Sys2Proof/Machine/Flags.lean ====
section
/-! DEFINITION. The flags of the block, which are the STATUS fields and nothing else (10_state.md R24 to R28, R48): the error codes, the
word STATUS reads as, and every update a command makes. -/

namespace Sys2Proof.Machine

/-- The number of an error (60_exceptions.md R171). -/
def ErrCode.code (e : ErrCode) : BitVec 4 :=
  match e with
  | .dimensionMismatch => 1
  | .unsupportedFormat => 2
  | .inputNotValid => 3
  | .capacityExceeded => 4
  | .illegalCommand => 5

/-- The greatest code that is ever written to STATUS.ERR (R25, R171). -/
def ErrCode.greatest : BitVec 4 := 5

/-- A flag as a register bit. -/
def flagBit (b : Bool) : Nat := if b then 1 else 0

/-- The word STATUS reads as: ERR in [3:0], the VALID bits in 8, 9 and 10, every reserved bit 0 (R24). -/
def Status.toWord (st : Status) : Word :=
  BitVec.ofNat 32 (st.err.toNat + flagBit st.grayValid * 2 ^ 8 + flagBit st.toutValid * 2 ^ 9 + flagBit st.frameValid * 2 ^ 10)

/-- ERR <- v; the VALID bits stand (R12, R161). -/
def Status.withErr (st : Status) (v : BitVec 4) : Status := { st with err := v }

/-- A successful REDUCE: GRAY_VALID <- 1, ERR <- 0 (R104). -/
def Status.reduced (st : Status) : Status := { st with grayValid := true, err := 0 }

/-- A successful TINT: TOUT_VALID <- 1, ERR <- 0 (R122). -/
def Status.tinted (st : Status) : Status := { st with toutValid := true, err := 0 }

/-- A successful ENCODE: FRAME_VALID <- 1, ERR <- 0 (R142). -/
def Status.encoded (st : Status) : Status := { st with frameValid := true, err := 0 }

end Sys2Proof.Machine
end

