-- ==== Sys2Proof/Machine/Params.lean ====
section
/-! DEFINITION. The parameters of 00_scope.md R8 at work: the capacity test, the parameters built from Config's free constants so that
every law holds and nothing else is fixed, the spec's defaults, and which of the two this machine runs with. -/

namespace Sys2Proof

/-- `n` pixels fit the capacity: n ≤ MAX_PIXELS (`Params.fits_iff`). The first alternative is implied by R8's lower bound; it lets the
question be answered without knowing MAX_PIXELS wherever every machine of the spec answers it alike. -/
def Params.fits (p : Params) (n : Nat) : Bool := n ≤ Config.minPixels || n ≤ p.maxPixels

/-- `clamp(v, lo, hi)` on natural numbers (R10). -/
def clamp (v lo hi : Nat) : Nat := min (max v lo) hi

/-- LUMA_FN from a free function: gray pixels by the law of R102, every other pixel by the free function. Every function that obeys the
law is of this form (`Params.lumaOf_self`). -/
def Params.lumaOf (f : Byte → Byte → Byte → Byte) (r g b : Byte) : Byte :=
  if r = g ∧ g = b then b else f r g b

/-- TINT_MUL from a free function: t = 255 and t = 0 by the laws of R121, every other t by the free function. Every function that obeys
the laws is of this form (`Params.tintMulOf_self`). -/
def Params.tintMulOf (f : Byte → Byte → Nat) (c t : Byte) : Nat :=
  if t = 255 then c.toNat else if t = 0 then 0 else f c t

/-- The parameters of an arbitrary machine of this spec (R8): open, but lawful (log 1). -/
def Params.arbitrary : Params where
  maxPixels := min Config.morePixels (Config.mostPixels - Config.minPixels) + Config.minPixels
  lumaFn := Params.lumaOf Config.lumaColour
  tintMul := Params.tintMulOf Config.tintMulInner
  toutPad := Config.toutPad
  base := Config.base
  maxPixels_ge := Nat.le_add_left _ _
  maxPixels_le := by
    have h := Nat.min_le_right Config.morePixels (Config.mostPixels - Config.minPixels)
    have h' : Config.mostPixels - Config.minPixels + Config.minPixels = Config.mostPixels := by decide
    exact h' ▸ Nat.add_le_add_right h Config.minPixels
  lumaFn_gray := fun v => by simp [Params.lumaOf]
  tintMul_one := fun c => by simp [Params.tintMulOf]
  tintMul_zero := fun c => by simp [Params.tintMulOf]

/-- The spec's default LUMA_FN: clamp((77 r + 150 g + 29 b + 128) >> 8, 0, 255) (R102). -/
def defaultLuma (r g b : Byte) : Byte :=
  BitVec.ofNat 8 (clamp ((77 * r.toNat + 150 * g.toNat + 29 * b.toNat + 128) / 2 ^ 8) 0 255)

/-- The spec's default TINT_MUL: floor(c t / 255) (R121). -/
def defaultTintMul (c t : Byte) : Nat := c.toNat * t.toNat / 255

/-- The spec's default parameters, which all of 95_test_vectors.md assumes (R8). BASE_* has no default; 0 here is read by no rule. -/
def Params.default : Params where
  maxPixels := 4096
  lumaFn := defaultLuma
  tintMul := defaultTintMul
  toutPad := 0xFF
  base := fun _ => 0
  maxPixels_ge := by decide
  maxPixels_le := by decide
  lumaFn_gray := fun v => by
    apply BitVec.eq_of_toNat_eq
    have h := v.isLt
    simp only [defaultLuma, clamp, BitVec.toNat_ofNat]
    omega
  tintMul_one := fun c => by
    change c.toNat * 255 / 255 = c.toNat
    omega
  tintMul_zero := fun c => by simp [defaultTintMul]

/-- The parameters this machine runs with: open (log 1), so that what is proved of it holds of every machine of the spec. -/
def Machine.params : Params := Params.arbitrary

end Sys2Proof
end

