-- ==== Sys2Proof/Machine/Ops.lean ====
section
/-! DEFINITION. The named operations over buffers and registers: reading and writing bytes (00_scope.md R11), the register file as the
host sees it (10_state.md R22 to R39), the buffers as the host sees them (20_memory.md R65, R67), raising an error (R12), recording a
model fault (R13) and the bus. -/

namespace Sys2Proof.Machine

/-- MemRead(S, a, 1), where an unwritten byte is none (R11). -/
def Memory.read (m : Memory) (a : Nat) : Option Byte :=
  match m with
  | [] => none
  | c :: rest => if c.1 = a then some c.2 else Memory.read rest a

/-- The cells of bytes stored from address `a` upward. -/
def Memory.cellsFrom (a : Nat) (bs : List Byte) : Memory :=
  match bs with
  | [] => []
  | v :: vs => (a, v) :: Memory.cellsFrom (a + 1) vs

/-- MemWrite of `bs` at `a`, `a`+1, …: the cells below, the new cells, the cells above. -/
def Memory.splice (m : Memory) (a : Nat) (bs : List Byte) : Memory :=
  m.filter (fun c => c.1 < a) ++ Memory.cellsFrom a bs ++ m.filter (fun c => a + bs.length ≤ c.1)

/-- MemWrite(S, a, 1, v) (R11). -/
def Memory.write (m : Memory) (a : Nat) (v : Byte) : Memory := m.splice a [v]

/-- The canonical form: addresses strictly rising. No entry can equal what an unlisted address reads as, since that is no value. -/
abbrev Memory.wf (m : Memory) : Prop := m.Pairwise (fun c d => c.1 < d.1)

/-- Every listed address lies in lo ≤ a and satisfies the range's own test. -/
abbrev Memory.within (m : Memory) (lo : Nat) (ok : Nat → Bool) : Prop := ∀ c ∈ m, lo ≤ c.1 ∧ ok c.1 = true

/-- MemRead for a command: the byte, or the address whose byte is unwritten (R11, R13). -/
def Memory.get (m : Memory) (a : Nat) : Except Nat Byte :=
  match m.read a with
  | some v => .ok v
  | none => .error a

/-- `for i in is: L[i] <- f(i)`, stopping at the first unwritten byte. -/
def collect (f : Nat → Except Nat Byte) (is : List Nat) : Except Nat (List Byte) :=
  match is with
  | [] => .ok []
  | i :: rest =>
    match f i with
    | .error a => .error a
    | .ok v =>
      match collect f rest with
      | .error a => .error a
      | .ok vs => .ok (v :: vs)

/-- The address is inside the buffer's range (20_memory.md R60): 4·MAX_PIXELS bytes of SRC and TOUT (a < 4·MAX_PIXELS, that is, pixel
a/4 fits), MAX_PIXELS bytes of GRAY, TXBUF_LEN bytes of TXBUF. -/
def inRange (p : Params) (b : Buffer) (a : Nat) : Bool :=
  match b with
  | .src => p.fits (a / 4 + 1)
  | .gray => p.fits (a + 1)
  | .tout => p.fits (a / 4 + 1)
  | .txbuf => a < Config.txbufLen

/-- The hard-wired header bytes of TXBUF, addresses 0 to 3 (10_state.md R43). -/
def headerByte (a : Nat) : Option Byte := Config.header[a]?

/-- The byte of buffer `b` at `a`, none where it is unwritten; TXBUF's header is hard-wired (R43). -/
def State.readBuf (s : State) (b : Buffer) (a : Nat) : Option Byte :=
  match b with
  | .src => s.src.read a
  | .gray => s.gray.read a
  | .tout => s.tout.read a
  | .txbuf => if a < 4 then headerByte a else s.txbuf.read a

/-- A host write of one buffer byte: SRC stores it, GRAY, TOUT and TXBUF ignore it (20_memory.md R67). -/
def State.writeBuf (s : State) (b : Buffer) (a : Nat) (v : Byte) : State :=
  match b with
  | .src => { s with src := s.src.write a v }
  | .gray => s
  | .tout => s
  | .txbuf => s

/-- The registers of the map (R22). -/
inductive Reg where
  | cmd | status | srcFmt | srcDim | tint | grayDim | toutFmt | toutDim | nativeDim | txbufLen | maxPix
deriving DecidableEq, Repr

/-- A register's byte offset (R22). -/
def Reg.offset (r : Reg) : Nat :=
  match r with
  | .cmd => 0x00
  | .status => 0x04
  | .srcFmt => 0x08
  | .srcDim => 0x0C
  | .tint => 0x10
  | .grayDim => 0x14
  | .toutFmt => 0x18
  | .toutDim => 0x1C
  | .nativeDim => 0x20
  | .txbufLen => 0x24
  | .maxPix => 0x28

/-- All registers, in the map's order (R22). -/
def Reg.all : List Reg :=
  [.cmd, .status, .srcFmt, .srcDim, .tint, .grayDim, .toutFmt, .toutDim, .nativeDim, .txbufLen, .maxPix]

/-- The register at an offset; none where the map has none (R38). -/
def Reg.ofOffset (off : Nat) : Option Reg := Reg.all.find? (fun r => r.offset == off)

/-- `{H[15:0], W[15:0]}` (R35, R104). -/
def dimWord (w h : Nat) : Word := BitVec.ofNat 16 h ++ BitVec.ofNat 16 w

/-- The word a register reads as, reserved fields 0 (20_memory.md R61, 10_state.md R23 to R37). -/
def State.regValue (p : Params) (s : State) (r : Reg) : Word :=
  match r with
  | .cmd => 0
  | .status => s.status.toWord
  | .srcFmt => s.srcFmt.setWidth 32
  | .srcDim => s.srcDim
  | .tint => s.tint
  | .grayDim => s.grayDim
  | .toutFmt => s.toutFmt.setWidth 32
  | .toutDim => s.toutDim
  | .nativeDim => dimWord Config.nativeW Config.nativeH
  | .txbufLen => BitVec.ofNat 32 Config.txbufLen
  | .maxPix => BitVec.ofNat 32 p.maxPixels

/-- RegRead at an admitted offset: an offset without a register reads 0 (R38, R61). -/
def State.readReg (p : Params) (s : State) (off : Nat) : Word :=
  match Reg.ofOffset off with
  | some r => s.regValue p r
  | none => 0

/-- A RegWrite other than of CMD: SRC_FMT, SRC_DIM and TINT store, reserved bits discarded; everything else ignores it (R38, R62). -/
def State.writeReg (s : State) (off : Nat) (v : Word) : State :=
  match Reg.ofOffset off with
  | some .srcFmt => { s with srcFmt := v.setWidth 8 }
  | some .srcDim => { s with srcDim := v }
  | some .tint => { s with tint := v }
  | _ => s

/-- `raise E`: STATUS.ERR <- code(E) and no other change (00_scope.md R12, 60_exceptions.md R170). The block's errors are codes: there
is no trap entry and so no return from one (R176, R177). -/
def State.raise (s : State) (e : ErrCode) : State := { s with status := s.status.withErr e.code }

/-- The model fault is recorded and never cleared (00_scope.md R13). -/
def State.record (s : State) (f : Fault) : State := { s with faultRecord := some f }

/-- A host read returns a value (R61, R65). -/
def State.reply (s : State) (r : Reply) : State := { s with replies := r :: s.replies }

/-- The host's next transaction has reached the block. -/
def State.withPending (s : State) (ts : List Transaction) : State := { s with pending := ts }

end Sys2Proof.Machine
end

