-- ==== Sys2Proof/Machine/Operands.lean ====
section
/-! DEFINITION. The operands of the commands, all taken from registers and buffers (30_encoding.md R87): the fields of the dimension and
tint registers, the pixel formats, and the fetch of a pixel's luminosity. -/

namespace Sys2Proof.Machine

/-- W = bits [15:0] of a dimension register (10_state.md R30, R32, R34). -/
def dimWidth (d : Word) : Nat := (d.extractLsb' 0 16).toNat

/-- H = bits [31:16] of a dimension register (R30, R32, R34). -/
def dimHeight (d : Word) : Nat := (d.extractLsb' 16 16).toNat

/-- N = W * H (40_color_reducer.md R104). -/
def pixelCount (d : Word) : Nat := dimWidth d * dimHeight d

/-- TINT.R = bits [7:0] (R31). -/
def tintR (t : Word) : Byte := t.extractLsb' 0 8

/-- TINT.G = bits [15:8] (R31). -/
def tintG (t : Word) : Byte := t.extractLsb' 8 8

/-- TINT.B = bits [23:16] (R31). -/
def tintB (t : Word) : Byte := t.extractLsb' 16 8

/-- TINT.A = bits [31:24], the presence flag (R31, R120). -/
def tintA (t : Word) : Byte := t.extractLsb' 24 8

/-- The supported source formats (R100). -/
inductive PixFormat where
  | gray8 | bgr24 | bgra32 | bgr32
deriving DecidableEq, Repr

/-- The format of an SRC_FMT.FMT code; none for the unsupported codes 0x04 to 0xFF (R100). -/
def PixFormat.ofCode (c : Byte) : Option PixFormat :=
  match c.toNat with
  | 0 => some .gray8
  | 1 => some .bgr24
  | 2 => some .bgra32
  | 3 => some .bgr32
  | _ => none

/-- The FMT code of GRAY8, which TOUT_FMT holds after a pass-through (R33, R100). -/
def PixFormat.gray8Code : Byte := 0x00

/-- The FMT code of BGR32, which TOUT_FMT holds after shading (R33, R100). -/
def PixFormat.bgr32Code : Byte := 0x03

/-- The luminosity of the colour pixel whose blue byte is at `a`, green at `a`+1, red at `a`+2, read in that order (R103). -/
def colourLuma (p : Params) (src : Memory) (a : Nat) : Except Nat Byte :=
  match src.get a with
  | .error e => .error e
  | .ok b =>
    match src.get (a + 1) with
    | .error e => .error e
    | .ok g =>
      match src.get (a + 2) with
      | .error e => .error e
      | .ok r => .ok (p.lumaFn r g b)

/-- PixLuma(fmt, i) (R103): alpha and pad bytes are never read. -/
def pixLuma (p : Params) (f : PixFormat) (src : Memory) (i : Nat) : Except Nat Byte :=
  match f with
  | .gray8 => src.get i
  | .bgr24 => colourLuma p src (3 * i)
  | .bgra32 => colourLuma p src (4 * i)
  | .bgr32 => colourLuma p src (4 * i)

end Sys2Proof.Machine
end

