-- ==== Sys2Proof/Machine/ColorReducer.lean ====
section
/-! DEFINITION. REDUCE, the Color Reducer (40_color_reducer.md R104). -/

namespace Sys2Proof.Machine

/-- The writes of a successful REDUCE: GRAY bytes 0 upward, GRAY_DIM <- SRC_DIM, GRAY_VALID <- 1, ERR <- 0 (R104). -/
def State.reduced (s : State) (luma : List Byte) : State :=
  { s with gray := s.gray.splice 0 luma, grayDim := s.srcDim, status := s.status.reduced }

/-- REDUCE under given parameters: both checks, then every read, then every write (R104, R175). -/
def reduceWith (p : Params) (s : State) : Host.Outcome State Fault Refusal :=
  match PixFormat.ofCode s.srcFmt with
  | none => .next (s.raise .unsupportedFormat)
  | some f =>
    if p.fits (pixelCount s.srcDim) then
      match collect (pixLuma p f s.src) (List.range (pixelCount s.srcDim)) with
      | .ok luma => .next (s.reduced luma)
      | .error a => .fault (.unwrittenRead .src a)
    else .next (s.raise .capacityExceeded)

/-- REDUCE (R104). -/
def execReduce (s : State) : Host.Outcome State Fault Refusal := reduceWith params s

end Sys2Proof.Machine
end

