-- ==== Sys2Proof/Machine/Control.lean ====
section
/-! DEFINITION. The control command (43_control.md). -/

namespace Sys2Proof.Machine

/-- NOP: ERR <- 0 and nothing else (R161). -/
def execNop (s : State) : Host.Outcome State Fault Refusal := .next { s with status := s.status.withErr 0 }

end Sys2Proof.Machine
end

