-- ==== Sys2Proof/Machine/FrameEncoder.lean ====
section
/-! DEFINITION. ENCODE, the Frame Encoder (42_frame_encoder.md R140 to R142). -/

namespace Sys2Proof.Machine

/-- bit(v, i) as a byte (00_scope.md R10). -/
def bitOf (v : Byte) (i : Nat) : Byte := (v >>> i) &&& 1

/-- packGroup(s, b): the accumulator starts at 0; for v = 7 downto 0 it is shifted left by one and takes bit b of s[v] (R141). The
samples are s[0] first, so the last one is taken first. -/
def packGroup (s : List Byte) (b : Nat) : Byte := s.foldr (fun x acc => (acc <<< 1) ||| bitOf x b) 0

/-- The groups of 8 consecutive pixels in row-major order: a row of 128 pixels is 16 groups, so group 16·y + x/8 holds columns x to x+7
of row y (R140). -/
def groups (luma : List Byte) : List (List Byte) :=
  match luma with
  | a :: b :: c :: d :: e :: f :: g :: h :: rest => [a, b, c, d, e, f, g, h] :: groups rest
  | _ => []

/-- The bytes of plane `p`, one per group, from luminosity bit 4 + p (R140, R141). -/
def plane (luma : List Byte) (p : Nat) : List Byte := (groups luma).map (fun s => packGroup s (4 + p))

/-- The payload: planes 0 to 3, one after the other, so plane p's byte of group r is at TXBUF address 4 + r + 512·p (R140, R142). -/
def payload (luma : List Byte) : List Byte := plane luma 0 ++ plane luma 1 ++ plane luma 2 ++ plane luma 3

/-- The writes of a successful ENCODE: TXBUF bytes from 4 upward, FRAME_VALID <- 1, ERR <- 0 (R142). -/
def State.encoded (s : State) (luma : List Byte) : State :=
  { s with txbuf := s.txbuf.splice 4 (payload luma), status := s.status.encoded }

/-- ENCODE (R142): both checks, then the 4096 reads of GRAY in ascending order, then the 2048 writes of TXBUF. The spec reads and writes
group by group; the writes touch no GRAY byte, so the order does not show. -/
def execEncode (s : State) : Host.Outcome State Fault Refusal :=
  if s.status.grayValid then
    if dimWidth s.grayDim = Config.nativeW ∧ dimHeight s.grayDim = Config.nativeH then
      match collect s.gray.get (List.range (Config.nativeW * Config.nativeH)) with
      | .ok luma => .next (s.encoded luma)
      | .error a => .fault (.unwrittenRead .gray a)
    else .next (s.raise .dimensionMismatch)
  else .next (s.raise .inputNotValid)

end Sys2Proof.Machine
end

