-- ==== Sys2Proof/Machine/TintShader.lean ====
section
/-! DEFINITION. TINT, the Tint Shader (41_tint_shader.md R120 to R123). -/

namespace Sys2Proof.Machine

/-- Shade(c, t) = clamp(TINT_MUL(c, t), 0, 255), both bounds applied (R121, R123). -/
def shade (p : Params) (c t : Byte) : Byte := BitVec.ofNat 8 (clamp (p.tintMul c t) 0 255)

/-- The four TOUT bytes of a shaded pixel: blue, green, red from the replicated gray value, then the pad (R122). -/
def shadePixel (p : Params) (tint : Word) (c : Byte) : List Byte :=
  [shade p c (tintB tint), shade p c (tintG tint), shade p c (tintR tint), p.toutPad]

/-- The writes of a successful TINT: TOUT bytes 0 upward, TOUT_FMT, TOUT_DIM <- GRAY_DIM, TOUT_VALID <- 1, ERR <- 0 (R122). -/
def State.tinted (s : State) (fmt : Byte) (bytes : List Byte) : State :=
  { s with tout := s.tout.splice 0 bytes, toutFmt := fmt, toutDim := s.grayDim, status := s.status.tinted }

/-- TINT under given parameters: the check, the reads, then pass-through or shading as the presence flag says (R120, R122). -/
def tintWith (p : Params) (s : State) : Host.Outcome State Fault Refusal :=
  if s.status.grayValid then
    match collect s.gray.get (List.range (pixelCount s.grayDim)) with
    | .ok luma =>
      if tintA s.tint = 0 then .next (s.tinted PixFormat.gray8Code luma)
      else .next (s.tinted PixFormat.bgr32Code (luma.flatMap (shadePixel p s.tint)))
    | .error a => .fault (.unwrittenRead .gray a)
  else .next (s.raise .inputNotValid)

/-- TINT (R122). -/
def execTint (s : State) : Host.Outcome State Fault Refusal := tintWith params s

end Sys2Proof.Machine
end

