-- ==== Sys2Proof/Machine/Dispatch.lean ====
section
/-! DEFINITION. One arm per command (43_control.md R160). -/

namespace Sys2Proof.Machine

def exec (i : Instr) (s : State) : Host.Outcome State Fault Refusal :=
  match i with
  | .nop => Sys2Proof.Machine.execNop s
  | .reduce => Sys2Proof.Machine.execReduce s
  | .tint => Sys2Proof.Machine.execTint s
  | .encode => Sys2Proof.Machine.execEncode s

end Sys2Proof.Machine
end

