-- ==== Sys2Proof/Machine/HostAccess.lean ====
section
/-! DEFINITION. What a host transaction is (30_encoding.md R90), when it is admitted (20_memory.md R61 to R68), and what the block does
with it; a CMD write performs the command it encodes, in one atomic step (R75, 43_control.md R160). -/

namespace Sys2Proof.Machine

/-- `WR`: RegWrite(off, v) (R90). -/
def Transaction.wr (off : Nat) (v : Word) : Transaction := { space := .reg, addr := off, width := 32, data := some v.toNat }

/-- `RD`: RegRead(off) (R90). -/
def Transaction.rd (off : Nat) : Transaction := { space := .reg, addr := off, width := 32, data := none }

/-- `SB`: BufWrite(b, a, v) (R90). -/
def Transaction.sb (b : Buffer) (a : Nat) (v : Byte) : Transaction :=
  { space := .buf b, addr := a, width := 8, data := some v.toNat }

/-- `LB`: BufRead(b, a) (R90). -/
def Transaction.lb (b : Buffer) (a : Nat) : Transaction := { space := .buf b, addr := a, width := 8, data := none }

/-- An admitted host access (R61, R62, R65, R67). -/
inductive Access where
  | regRead (off : Nat)
  | regWrite (off : Nat) (v : Word)
  | bufRead (b : Buffer) (a : Nat)
  | bufWrite (b : Buffer) (a : Nat) (v : Byte)
deriving DecidableEq, Repr

/-- Admission to the register file: width 32, offset a multiple of 4 and at most 0xFC, write data of 32 bits (R61 to R64). -/
def admitReg (t : Transaction) : Except NotAdmitted Access :=
  if t.width ≠ 32 then .error .registerWidth
  else if t.addr % 4 ≠ 0 then .error .registerAlign
  else if 0xFC < t.addr then .error .registerRange
  else
    match t.data with
    | none => .ok (.regRead t.addr)
    | some v => if v < 2 ^ 32 then .ok (.regWrite t.addr (BitVec.ofNat 32 v)) else .error .dataWidth

/-- Admission to a buffer: width 8, address in the buffer's range, write data of 8 bits (R65 to R68). -/
def admitBuf (p : Params) (b : Buffer) (t : Transaction) : Except NotAdmitted Access :=
  if t.width ≠ 8 then .error .bufferWidth
  else if inRange p b t.addr = false then .error .bufferRange
  else
    match t.data with
    | none => .ok (.bufRead b t.addr)
    | some v => if v < 2 ^ 8 then .ok (.bufWrite b t.addr (BitVec.ofNat 8 v)) else .error .dataWidth

/-- The access a transaction makes, or why it is not admitted. -/
def admission (p : Params) (t : Transaction) : Except NotAdmitted Access :=
  match t.space with
  | .reg => admitReg t
  | .buf b => admitBuf p b t

/-- Dispatch of a CMD write of value `v` (R160): an illegal word raises IllegalCommand (R88). -/
def dispatch (v : Word) (s : State) : Host.Outcome State Fault Refusal :=
  match decode v with
  | .ok i => exec i s
  | .error _ => .next (s.raise .illegalCommand)

/-- One admitted host access (R61, R62, R65, R67). A read of an unwritten byte is the model fault, never a value (R65). -/
def perform (p : Params) (acc : Access) (s : State) : Host.Outcome State Fault Refusal :=
  match acc with
  | .regRead off => .next (s.reply (.word (s.readReg p off)))
  | .regWrite off v => if off = Reg.offset .cmd then dispatch v s else .next (s.writeReg off v)
  | .bufRead b a =>
    match s.readBuf b a with
    | some v => .next (s.reply (.byte v))
    | none => .fault (.unwrittenRead b a)
  | .bufWrite b a v => .next (s.writeBuf b a v)

/-- One host transaction: its admitted access, or the refusal of one that has no step (R63, R64, R66, R68). -/
def transact (t : Transaction) (s : State) : Host.Outcome State Fault Refusal :=
  match admission params t with
  | .ok acc => perform params acc s
  | .error why => .refused (.notAdmitted why)

/-- One step of the machine (00_scope.md R15): a recorded model fault stands and nothing runs after it (R13); with no transaction
pending the block waits and nothing changes (70_reset_and_hazards.md R202, log 5); else the host's next transaction. -/
def stepOnce (s : State) : Host.Outcome State Fault Refusal :=
  match s.faultRecord with
  | some f => .fault f
  | none =>
    match s.pending with
    | [] => .next s
    | t :: rest => transact t (s.withPending rest)

/-- The state with a CMD write of `w`'s first `nbits` bits put before the host's other transactions; nothing else changes, so a
recorded model fault stands (00_scope.md R13, log 6). -/
def placeCommand (s : State) (nbits w : Nat) : State :=
  { s with
    pending := { space := .reg, addr := Reg.offset .cmd, width := 32, data := some (w % 2 ^ nbits) } :: s.pending }

end Sys2Proof.Machine
end

