-- ==== Sys2Proof/Machine/Step.lean ====
section
/-! DEFINITION. The step of the machine and the placing of a command (both in Machine/HostAccess.lean). -/

namespace Sys2Proof.Machine

/-- One step: one host access, or one command, which is atomic (00_scope.md R15). -/
def step (s : State) : Host.Outcome State Fault Refusal := stepOnce s

/-- `s` with a CMD write of the command word `w` as the host's next transaction, which the next step performs unless a model
fault is recorded (log 6). -/
def State.withFetchWord (s : State) (nbits w : Nat) : State := placeCommand s nbits w

end Sys2Proof.Machine
end

