-- ==== Sys2Proof/Safety.lean ====
section
/-! DEFINITION. What counts as a successful run (00_scope.md R13), the state a faulted run rests in, and the invariant of the machine:
the relations between fields that the spec's rules keep from reset on. -/

namespace Sys2Proof.Machine

/-- The run so far is successful: no model fault is recorded (R13). -/
def State.successful (s : State) : Bool := s.faultRecord == none

/-- The state after one step when model faults are recorded rather than reported: a fault leaves the block as it was but for the record
(R13, R65), an access that is not admitted leaves everything (R64). Of GRAY after a faulted REDUCE the spec promises nothing (R104), so
no statement speaks of it (log 2). -/
def advance (s : State) : State :=
  match step s with
  | .next t => t
  | .fault f => s.record f
  | .refused _ => s

/-- Bytes 0 to n-1 are all written. -/
def Memory.filled (m : Memory) (n : Nat) : Prop := ∀ a, a < n → (m.read a).isSome = true

/-- The SRC bytes REDUCE reads: the luminosity byte of a GRAY8 pixel, the blue, green and red bytes of a colour pixel, for every pixel of
the SRC_DIM image (40_color_reducer.md R100, R101, R103). -/
def State.reduceReads (s : State) (a : Nat) : Prop :=
  ∃ i k, i < pixelCount s.srcDim ∧
    (s.srcFmt = 0 ∧ a = i ∨ s.srcFmt = 1 ∧ k < 3 ∧ a = 3 * i + k ∨ (s.srcFmt = 2 ∨ s.srcFmt = 3) ∧ k < 3 ∧ a = 4 * i + k)

/-- Every buffer is in canonical form. -/
def State.canonical (s : State) : Prop := s.src.wf ∧ s.gray.wf ∧ s.tout.wf ∧ s.txbuf.wf

/-- No buffer lists a byte outside its range (20_memory.md R60), nor TXBUF one of its header (10_state.md R43). -/
def State.inBounds (s : State) : Prop :=
  s.src.within 0 (inRange params .src) ∧ s.gray.within 0 (inRange params .gray) ∧
  s.tout.within 0 (inRange params .tout) ∧ s.txbuf.within 4 (inRange params .txbuf)

/-- STATUS.ERR holds a legal code (R25). -/
def State.errLegal (s : State) : Prop := s.status.err ≤ ErrCode.greatest

/-- GRAY and GRAY_DIM: untouched while GRAY_VALID is 0; afterwards every pixel of the image is written (R26, R32, R41, R122). The image
fits the capacity (R104). -/
def State.grayOk (s : State) : Prop :=
  (s.status.grayValid = false → s.gray = [] ∧ s.grayDim = 0) ∧
  s.gray.filled (pixelCount s.grayDim) ∧ params.fits (pixelCount s.grayDim) = true

/-- TOUT, TOUT_FMT and TOUT_DIM: untouched while TOUT_VALID is 0; afterwards TOUT_FMT is GRAY8 or BGR32 and every byte of the image it
describes is written (R27, R33, R34, R42). -/
def State.toutOk (s : State) : Prop :=
  (s.status.toutValid = false → s.tout = [] ∧ s.toutFmt = 0 ∧ s.toutDim = 0) ∧
  (s.toutFmt = PixFormat.gray8Code ∧ s.tout.filled (pixelCount s.toutDim) ∨
    s.toutFmt = PixFormat.bgr32Code ∧ s.tout.filled (4 * pixelCount s.toutDim)) ∧
  params.fits (pixelCount s.toutDim) = true

/-- The payload of TXBUF: unwritten while FRAME_VALID is 0, wholly written afterwards (R28, R43, R142). -/
def State.frameOk (s : State) : Prop :=
  (s.status.frameValid = false → s.txbuf = []) ∧
  (s.status.frameValid = true → ∀ a, 4 ≤ a → a < Config.txbufLen → (s.txbuf.read a).isSome = true)

/-- A tint output or a frame exists only where a reduced image does: TINT and ENCODE need GRAY_VALID, and nothing clears it (R26). -/
def State.orderOk (s : State) : Prop :=
  (s.status.toutValid = true → s.status.grayValid = true) ∧ (s.status.frameValid = true → s.status.grayValid = true)

/-- The invariant of the machine. -/
structure State.Inv (s : State) : Prop where
  canonical : s.canonical
  inBounds : s.inBounds
  errLegal : s.errLegal
  grayOk : s.grayOk
  toutOk : s.toutOk
  frameOk : s.frameOk
  orderOk : s.orderOk

end Sys2Proof.Machine
end

