-- ==== Sys2Proof/Certificates/Slice0/Obligations.lean ====
section
/-! DEFINITION. The statements about the block, from the numbered rules of spec/. `s.faultRecord = none` and
`s.pending = t :: rest` say that the next step performs the host transaction `t`; what the statements say of a command they say of
`exec`, and `CmdWriteRunsDecodedCommand` and `RegWriteEffects` carry it to the step. -/

open Sys2Proof Sys2Proof.Machine

/-! ### Reset and the register file -/

/-- R201: what reset leaves in every register and buffer, and in the fault record. -/
def Obligations.ResetLeavesSpecValues : Prop :=
  State.reset.readReg params 0x04 = 0 ∧ State.reset.readReg params 0x08 = 0 ∧ State.reset.readReg params 0x0C = 0 ∧
  State.reset.readReg params 0x10 = 0 ∧ State.reset.readReg params 0x14 = 0 ∧ State.reset.readReg params 0x18 = 0 ∧
  State.reset.readReg params 0x1C = 0 ∧
  State.reset.readReg params 0x20 = 0x00200080 ∧ State.reset.readReg params 0x24 = 0x00000804 ∧
  State.reset.readReg params 0x28 = BitVec.ofNat 32 params.maxPixels ∧
  (∀ a, State.reset.readBuf .src a = none) ∧ (∀ a, State.reset.readBuf .gray a = none) ∧
  (∀ a, State.reset.readBuf .tout a = none) ∧ (∀ a, 4 ≤ a → State.reset.readBuf .txbuf a = none) ∧
  State.reset.readBuf .txbuf 0 = some 0x81 ∧ State.reset.readBuf .txbuf 1 = some 0xC3 ∧
  State.reset.readBuf .txbuf 2 = some 0xE7 ∧ State.reset.readBuf .txbuf 3 = some 0x00 ∧
  State.reset.faultRecord = none

/-- R61: an admitted register read returns the register at its offset, CMD and unmapped offsets read 0, and no block state changes. -/
def Obligations.RegReadReturnsTheMap : Prop :=
  ∀ (s : State) (off : Nat) (rest : List Transaction), s.faultRecord = none → s.pending = .rd off :: rest →
    off % 4 = 0 → off ≤ 0xFC →
    ∃ v : Word, step s = .next { s with pending := rest, replies := .word v :: s.replies } ∧
      (off = 0x00 → v = 0) ∧
      (off = 0x04 → v.toNat = s.status.err.toNat + 2 ^ 8 * s.status.grayValid.toNat + 2 ^ 9 * s.status.toutValid.toNat +
        2 ^ 10 * s.status.frameValid.toNat) ∧ (off = 0x08 → v.toNat = s.srcFmt.toNat) ∧
      (off = 0x0C → v = s.srcDim) ∧ (off = 0x10 → v = s.tint) ∧ (off = 0x14 → v = s.grayDim) ∧
      (off = 0x18 → v.toNat = s.toutFmt.toNat) ∧ (off = 0x1C → v = s.toutDim) ∧ (off = 0x20 → v = 0x00200080) ∧
      (off = 0x24 → v = 0x00000804) ∧ (off = 0x28 → v.toNat = params.maxPixels) ∧ (0x2C ≤ off → v = 0)

/-- R24, R39: the fields of the STATUS word and its reserved bits. -/
def Obligations.StatusWordLayout : Prop :=
  ∀ (st : Status) (k : Nat), k < 32 → st.toWord.getLsbD k =
    if k < 4 then st.err.getLsbD k else if k = 8 then st.grayValid else if k = 9 then st.toutValid
    else if k = 10 then st.frameValid else false

/-- R62: what an admitted register write does, at each offset. -/
def Obligations.RegWriteEffects : Prop :=
  ∀ (s : State) (off : Nat) (v : Word) (rest : List Transaction), s.faultRecord = none → s.pending = .wr off v :: rest →
    off % 4 = 0 → off ≤ 0xFC →
    step s =
      if off = 0x00 then dispatch v { s with pending := rest }
      else if off = 0x08 then .next { s with pending := rest, srcFmt := BitVec.ofNat 8 (v.toNat % 256) }
      else if off = 0x0C then .next { s with pending := rest, srcDim := v }
      else if off = 0x10 then .next { s with pending := rest, tint := v }
      else .next { s with pending := rest }

/-- R75, R160: a write of CMD with a word that names a command is that command, performed in the same step. -/
def Obligations.CmdWriteRunsDecodedCommand : Prop :=
  ∀ (s : State) (v : Word) (i : Instr) (rest : List Transaction), s.faultRecord = none → s.pending = .wr 0x00 v :: rest →
    decode v = .ok i → step s = exec i { s with pending := rest }

/-- R88: an illegal word sets ERR to 5 and changes nothing else, and every word that is not illegal names a command. -/
def Obligations.IllegalWordSetsErrOnly : Prop :=
  (∀ (s : State) (v : Word) (rest : List Transaction), s.faultRecord = none → s.pending = .wr 0x00 v :: rest →
    (v.extractLsb' 4 28 ≠ 0 ∨ 4 ≤ (v.extractLsb' 0 4).toNat) →
    step s = .next { s with pending := rest, status := { s.status with err := 5 } }) ∧
  ∀ v : Word, v.extractLsb' 4 28 = 0 → (v.extractLsb' 0 4).toNat < 4 → ∃ i, decode v = .ok i

/-! ### Buffers and admission -/

/-- R65: an admitted buffer read returns the byte, or is the model fault where the byte is unwritten; it changes no block state. -/
def Obligations.BufReadReturnsByteOrFaults : Prop :=
  ∀ (s : State) (b : Buffer) (a : Nat) (rest : List Transaction), s.faultRecord = none → s.pending = .lb b a :: rest →
    (b = .src → a < 4 * params.maxPixels) → (b = .gray → a < params.maxPixels) → (b = .tout → a < 4 * params.maxPixels) →
    (b = .txbuf → a < 2052) →
    (∀ v, s.readBuf b a = some v → step s = .next { s with pending := rest, replies := .byte v :: s.replies }) ∧
    (s.readBuf b a = none → step s = .fault (.unwrittenRead b a))

/-- R67: a host write of SRC stores its byte and leaves every other byte and all other state; a host write of GRAY, TOUT or TXBUF has no
effect. -/
def Obligations.BufWriteStoresOnlyInSrc : Prop :=
  ∀ (s : State) (b : Buffer) (a : Nat) (v : Byte) (rest : List Transaction), s.faultRecord = none →
    s.pending = .sb b a v :: rest →
    (b = .src → a < 4 * params.maxPixels) → (b = .gray → a < params.maxPixels) → (b = .tout → a < 4 * params.maxPixels) →
    (b = .txbuf → a < 2052) →
    (b = .src → ∃ t, step s = .next t ∧ t = { s with pending := rest, src := t.src } ∧ t.readBuf .src a = some v ∧
      ∀ x, x ≠ a → t.readBuf .src x = s.readBuf .src x) ∧
    (b ≠ .src → step s = .next { s with pending := rest })

/-- R63, R64, R66, R68: a transaction of another width, at a misaligned or absent offset, or outside its buffer has no step. That the
model answers it with the refusal notAdmitted is DEDUCED (log 7): R66 says only that no wider buffer access exists. -/
def Obligations.UnadmittedAccessHasNoStep : Prop :=
  ∀ (s : State) (t : Transaction) (rest : List Transaction), s.faultRecord = none → s.pending = t :: rest →
    (t.space = .reg ∧ (t.width ≠ 32 ∨ t.addr % 4 ≠ 0 ∨ 0xFC < t.addr) ∨
     (∃ b, t.space = .buf b ∧ t.width ≠ 8) ∨
     (t.space = .buf .src ∧ 4 * params.maxPixels ≤ t.addr) ∨ (t.space = .buf .gray ∧ params.maxPixels ≤ t.addr) ∨
     (t.space = .buf .tout ∧ 4 * params.maxPixels ≤ t.addr) ∨ (t.space = .buf .txbuf ∧ 2052 ≤ t.addr)) →
    ∃ why, step s = .refused (.notAdmitted why)

/-- R61, R62, R65, R67: a transaction of the right width at an offset or address that exists is never refused: it has a next state, or is
the model fault. -/
def Obligations.AdmittedAccessHasStep : Prop :=
  ∀ (s : State) (t : Transaction) (rest : List Transaction), s.faultRecord = none → s.pending = t :: rest →
    (t.space = .reg ∧ t.width = 32 ∧ t.addr % 4 = 0 ∧ t.addr ≤ 0xFC ∧ (∀ d, t.data = some d → d < 2 ^ 32) ∨
     (t.width = 8 ∧ (∀ d, t.data = some d → d < 2 ^ 8) ∧
      (t.space = .buf .src ∧ t.addr < 4 * params.maxPixels ∨ t.space = .buf .gray ∧ t.addr < params.maxPixels ∨
       t.space = .buf .tout ∧ t.addr < 4 * params.maxPixels ∨ t.space = .buf .txbuf ∧ t.addr < 2052))) →
    (∃ u, step s = .next u) ∨ ∃ b a, step s = .fault (.unwrittenRead b a)

/-- R76: a host read of SRC returns what the latest host write left there, and other bytes are as they were. -/
def Obligations.SrcReadReturnsLatestWrite : Prop :=
  ∀ (s : State) (a x : Nat) (v : Byte) (rest : List Transaction), s.faultRecord = none →
    s.pending = .sb .src a v :: .lb .src x :: rest → a < 4 * params.maxPixels → x < 4 * params.maxPixels →
    ∃ t, step s = .next t ∧
      (x = a → step t = .next { t with pending := rest, replies := .byte v :: s.replies }) ∧
      (∀ w, x ≠ a → s.readBuf .src x = some w → step t = .next { t with pending := rest, replies := .byte w :: s.replies })

/-- R71: every read is idempotent. -/
def Obligations.ReadsAreIdempotent : Prop :=
  ∀ (s t u : State) (r : Transaction) (rest : List Transaction), s.pending = r :: r :: rest → r.data = none →
    step s = .next t → step t = .next u →
    ∃ v, t = { s with pending := r :: rest, replies := v :: s.replies } ∧
      u = { s with pending := rest, replies := v :: v :: s.replies }

/-- R43: the header of TXBUF reads 0x81, 0xC3, 0xE7, 0x00 in every state. -/
def Obligations.HeaderReadsConstant : Prop :=
  ∀ s : State, s.readBuf .txbuf 0 = some 0x81 ∧ s.readBuf .txbuf 1 = some 0xC3 ∧ s.readBuf .txbuf 2 = some 0xE7 ∧
    s.readBuf .txbuf 3 = some 0x00

/-- R13: a model fault is recorded, a run with a recorded fault is not successful, and the record is never cleared. That no step follows
it is the model's choice (log 2). -/
def Obligations.ModelFaultIsRecordedForGood : Prop :=
  (∀ (s : State) (f : Fault), step s = .fault f → (advance s).faultRecord = some f ∧ (advance s).successful = false) ∧
  ∀ (s : State) (f : Fault), s.faultRecord = some f → step s = .fault f ∧ advance s = s

/-- The model's choice (log 5): with no transaction pending the block waits and nothing changes. R202 says only that it waits for the
host's first access. -/
def Obligations.WaitsWithoutTransaction : Prop :=
  ∀ s : State, s.faultRecord = none → s.pending = [] → step s = .next s

/-- The model's choice (log 6): a command placed for the next step is run by it; where a model fault is recorded, the placing leaves the
record and that step answers the fault (log 2). -/
def Obligations.PlacedCommandRunsNext : Prop :=
  ∀ (s : State) (i : Instr),
    (s.faultRecord = none → step (s.withFetchWord 32 (encode i).toNat) = exec i s) ∧
    ∀ f, s.faultRecord = some f →
      (s.withFetchWord 32 (encode i).toNat).faultRecord = some f ∧ step (s.withFetchWord 32 (encode i).toNat) = .fault f

/-! ### Encoding -/

/-- R86: the opcode map, both ways, and that a word names a command exactly when its value is at most 3. -/
def Obligations.OpcodeMap : Prop :=
  encode .nop = 0x00000000 ∧ encode .reduce = 0x00000001 ∧ encode .tint = 0x00000002 ∧ encode .encode = 0x00000003 ∧
  (∀ i, decode (encode i) = .ok i) ∧ (∀ v : Word, (∃ i, decode v = .ok i) ↔ v.toNat ≤ 3) ∧ ∀ v : Word, CmdWord.wf v = true ↔ v.toNat ≤ 3

/-- R86: decode and encode agree in both directions, on every 32-bit word. -/
def Obligations.DecodeEncodeAgree : Prop :=
  ∀ (v : Word) (i : Instr), i.wf = true → (decode v = .ok i ↔ v = encode i)

/-- R86, R88: a few words, written out. -/
def Obligations.SampleWordsDecode : Prop :=
  decode 0b00000000000000000000000000000000 = .ok .nop ∧ decode 0b00000000000000000000000000000001 = .ok .reduce ∧
  decode 0b00000000000000000000000000000010 = .ok .tint ∧ decode 0b00000000000000000000000000000011 = .ok .encode ∧
  decode 0b00000000000000000000000000000100 = .error .opcode ∧ decode 0b00000000000000000000000000010000 = .error .reservedBits

/-! ### NOP -/

/-- R161: NOP clears ERR and changes nothing else; a word with OP 0 and a nonzero RSVD is no NOP but illegal. -/
def Obligations.NopClearsErrOnly : Prop :=
  (∀ s : State, exec .nop s = .next { s with status := { s.status with err := 0 } }) ∧
  decode 0x00000000 = .ok .nop ∧
  ∀ v : Word, v.extractLsb' 0 4 = 0 → v.extractLsb' 4 28 ≠ 0 →
    (∃ e, decode v = .error e) ∧ ∀ s : State, dispatch v s = .next { s with status := { s.status with err := 5 } }

/-! ### REDUCE -/

/-- R103, R104: REDUCE of a GRAY8 image that fits and is written copies every pixel, and changes GRAY, GRAY_DIM, GRAY_VALID and ERR
only. -/
def Obligations.ReduceCopiesGrayImage : Prop :=
  ∀ s : State, s.srcFmt = 0x00 → dimWidth s.srcDim * dimHeight s.srcDim ≤ params.maxPixels →
    (∀ i, i < dimWidth s.srcDim * dimHeight s.srcDim → (s.readBuf .src i).isSome = true) →
    ∃ t, exec .reduce s = .next t ∧
      t = { s with gray := t.gray, grayDim := s.srcDim, status := { s.status with grayValid := true, err := 0 } } ∧
      (∀ i, i < dimWidth s.srcDim * dimHeight s.srcDim → t.readBuf .gray i = s.readBuf .src i) ∧
      ∀ a, dimWidth s.srcDim * dimHeight s.srcDim ≤ a → t.readBuf .gray a = s.readBuf .gray a

/-- R100, R101, R103, R104: REDUCE of a colour image that fits and whose blue, green and red bytes are written gives LUMA_FN of each
pixel, whatever the fourth bytes hold, and changes GRAY, GRAY_DIM, GRAY_VALID and ERR only. -/
def Obligations.ReduceConvertsColourImage : Prop :=
  ∀ (s : State) (bpp : Nat) (b g r : Nat → Byte),
    (s.srcFmt = 0x01 ∧ bpp = 3 ∨ s.srcFmt = 0x02 ∧ bpp = 4 ∨ s.srcFmt = 0x03 ∧ bpp = 4) →
    dimWidth s.srcDim * dimHeight s.srcDim ≤ params.maxPixels →
    (∀ i, i < dimWidth s.srcDim * dimHeight s.srcDim → s.readBuf .src (bpp * i) = some (b i) ∧
      s.readBuf .src (bpp * i + 1) = some (g i) ∧ s.readBuf .src (bpp * i + 2) = some (r i)) →
    ∃ t, exec .reduce s = .next t ∧
      t = { s with gray := t.gray, grayDim := s.srcDim, status := { s.status with grayValid := true, err := 0 } } ∧
      (∀ i, i < dimWidth s.srcDim * dimHeight s.srcDim → t.readBuf .gray i = some (params.lumaFn (r i) (g i) (b i))) ∧
      ∀ a, dimWidth s.srcDim * dimHeight s.srcDim ≤ a → t.readBuf .gray a = s.readBuf .gray a

/-- R102: a colour image of gray pixels reduces to their gray values, whichever LUMA_FN the machine has. -/
def Obligations.GrayColoursKeepTheirValue : Prop :=
  ∀ (s : State) (bpp : Nat) (c : Nat → Byte),
    (s.srcFmt = 0x01 ∧ bpp = 3 ∨ s.srcFmt = 0x02 ∧ bpp = 4 ∨ s.srcFmt = 0x03 ∧ bpp = 4) →
    dimWidth s.srcDim * dimHeight s.srcDim ≤ params.maxPixels →
    (∀ i k, i < dimWidth s.srcDim * dimHeight s.srcDim → k < 3 → s.readBuf .src (bpp * i + k) = some (c i)) →
    ∃ t, exec .reduce s = .next t ∧ ∀ i, i < dimWidth s.srcDim * dimHeight s.srcDim → t.readBuf .gray i = some (c i)

/-- R173, R175: a format code of 0x04 or more sets ERR to 2 and changes nothing else, whatever the size and SRC. -/
def Obligations.ReduceRefusesFormat : Prop :=
  ∀ s : State, 0x04 ≤ s.srcFmt.toNat → exec .reduce s = .next { s with status := { s.status with err := 2 } }

/-- R104, R175: an image over the capacity sets ERR to 4 and changes nothing else, whatever SRC holds. -/
def Obligations.ReduceRefusesOversizeImage : Prop :=
  ∀ s : State, s.srcFmt.toNat < 0x04 → params.maxPixels < dimWidth s.srcDim * dimHeight s.srcDim →
    exec .reduce s = .next { s with status := { s.status with err := 4 } }

/-- R104: an image without pixels succeeds and writes no byte. -/
def Obligations.ReduceOfEmptyImage : Prop :=
  ∀ s : State, s.srcFmt.toNat < 0x04 → dimWidth s.srcDim = 0 ∨ dimHeight s.srcDim = 0 →
    exec .reduce s = .next { s with grayDim := s.srcDim, status := { s.status with grayValid := true, err := 0 } }

/-- R103: REDUCE of an image that fits is the model fault exactly where a byte it reads is unwritten, and names such a byte. -/
def Obligations.ReduceFaultsExactlyOnUnwrittenByte : Prop :=
  ∀ s : State, s.srcFmt.toNat < 0x04 → dimWidth s.srcDim * dimHeight s.srcDim ≤ params.maxPixels →
    ((∃ a, s.reduceReads a ∧ s.readBuf .src a = none) ↔ ∃ a, exec .reduce s = .fault (.unwrittenRead .src a)) ∧
    ∀ b a, exec .reduce s = .fault (.unwrittenRead b a) → b = .src ∧ s.reduceReads a ∧ s.readBuf .src a = none

/-- R105: the GRAY bytes REDUCE writes depend only on SRC_FMT, SRC_DIM and the SRC bytes it reads: two states that agree on those get
the same image, whatever else they hold. -/
def Obligations.ReduceDependsOnlyOnBytesRead : Prop :=
  ∀ s t s' : State, s.srcFmt = t.srcFmt → s.srcDim = t.srcDim →
    (∀ a, s.reduceReads a → s.readBuf .src a = t.readBuf .src a) → exec .reduce s = .next s' →
    ∃ t', exec .reduce t = .next t' ∧ t'.status.err = s'.status.err ∧
      (s'.status.err = 0 → t'.grayDim = s'.grayDim ∧
        ∀ i, i < dimWidth s.srcDim * dimHeight s.srcDim → t'.readBuf .gray i = s'.readBuf .gray i)

/-- R102: the spec's default LUMA_FN, where the clamp never takes effect. -/
def Obligations.DefaultLumaIsRoundedSum : Prop :=
  ∀ r g b : Byte, (Params.default.lumaFn r g b).toNat = (77 * r.toNat + 150 * g.toNat + 29 * b.toNat + 128) / 256

/-! ### TINT -/

/-- R120, R122: TINT with A = 0 copies the image, and changes TOUT, TOUT_FMT, TOUT_DIM, TOUT_VALID and ERR only. -/
def Obligations.TintPassesThrough : Prop :=
  ∀ s : State, s.status.grayValid = true → s.tint.toNat / 2 ^ 24 = 0 →
    (∀ i, i < dimWidth s.grayDim * dimHeight s.grayDim → (s.readBuf .gray i).isSome = true) →
    ∃ t, exec .tint s = .next t ∧
      t = { s with tout := t.tout, toutFmt := 0x00, toutDim := s.grayDim, status := { s.status with toutValid := true, err := 0 } } ∧
      (∀ i, i < dimWidth s.grayDim * dimHeight s.grayDim → t.readBuf .tout i = s.readBuf .gray i) ∧
      ∀ a, dimWidth s.grayDim * dimHeight s.grayDim ≤ a → t.readBuf .tout a = s.readBuf .tout a

/-- R120 to R123: TINT with A > 0 writes blue, green, red and the pad of each pixel, each colour the clamped product of the gray value
and its component, and changes TOUT, TOUT_FMT, TOUT_DIM, TOUT_VALID and ERR only. -/
def Obligations.TintShadesEachPixel : Prop :=
  ∀ (s : State) (c : Nat → Byte), s.status.grayValid = true → 0 < s.tint.toNat / 2 ^ 24 →
    (∀ i, i < dimWidth s.grayDim * dimHeight s.grayDim → s.readBuf .gray i = some (c i)) →
    ∃ t, exec .tint s = .next t ∧
      t = { s with tout := t.tout, toutFmt := 0x03, toutDim := s.grayDim, status := { s.status with toutValid := true, err := 0 } } ∧
      (∀ i, i < dimWidth s.grayDim * dimHeight s.grayDim →
        t.readBuf .tout (4 * i) = some (BitVec.ofNat 8 (min (params.tintMul (c i) (s.tint.extractLsb' 16 8)) 255)) ∧
        t.readBuf .tout (4 * i + 1) = some (BitVec.ofNat 8 (min (params.tintMul (c i) (s.tint.extractLsb' 8 8)) 255)) ∧
        t.readBuf .tout (4 * i + 2) = some (BitVec.ofNat 8 (min (params.tintMul (c i) (s.tint.extractLsb' 0 8)) 255)) ∧
        t.readBuf .tout (4 * i + 3) = some params.toutPad) ∧
      ∀ a, 4 * (dimWidth s.grayDim * dimHeight s.grayDim) ≤ a → t.readBuf .tout a = s.readBuf .tout a

/-- R122: full tint gives back the gray value in every colour, zero tint gives 0, whichever TINT_MUL the machine has. -/
def Obligations.TintFullAndZero : Prop :=
  ∀ (s : State) (c : Nat → Byte), s.status.grayValid = true → 0 < s.tint.toNat / 2 ^ 24 →
    (∀ i, i < dimWidth s.grayDim * dimHeight s.grayDim → s.readBuf .gray i = some (c i)) →
    ∃ t, exec .tint s = .next t ∧
      (s.tint.toNat % 2 ^ 24 = 0xFFFFFF → ∀ i k, i < dimWidth s.grayDim * dimHeight s.grayDim → k < 3 →
        t.readBuf .tout (4 * i + k) = some (c i)) ∧
      (s.tint.toNat % 2 ^ 24 = 0 → ∀ i k, i < dimWidth s.grayDim * dimHeight s.grayDim → k < 3 →
        t.readBuf .tout (4 * i + k) = some 0)

/-- R120: the values 1 to 255 of A all act alike. -/
def Obligations.TintPresenceFlagOnly : Prop :=
  ∀ (s u : State) (w : Word), 0 < s.tint.toNat / 2 ^ 24 → 0 < w.toNat / 2 ^ 24 → s.tint.toNat % 2 ^ 24 = w.toNat % 2 ^ 24 →
    exec .tint s = .next u → exec .tint { s with tint := w } = .next { u with tint := w }

/-- R122, R175: TINT without a reduced image sets ERR to 3 and changes nothing else. -/
def Obligations.TintNeedsReducedImage : Prop :=
  ∀ s : State, s.status.grayValid = false → exec .tint s = .next { s with status := { s.status with err := 3 } }

/-! ### ENCODE -/

/-- R141: packGroup puts bit b of sample k into bit k, and the bits 0 to 3 of the samples never reach a plane. -/
def Obligations.PackGroupClosedForm : Prop :=
  (∀ (s : List Byte) (b k : Nat), s.length = 8 → k < 8 → (packGroup s b).getLsbD k = (s[k]?.getD 0).getLsbD b) ∧
  ∀ (s t : List Byte) (p : Nat), s.map (fun v => v.toNat / 16) = t.map (fun v => v.toNat / 16) → packGroup s (4 + p) = packGroup t (4 + p)

/-- R142, R143: ENCODE of a written 128 by 32 image puts bit 4+p of every pixel at its place in plane p, and changes TXBUF's payload,
FRAME_VALID and ERR only. -/
def Obligations.EncodeClosedForm : Prop :=
  ∀ (s : State) (l : Nat → Byte), s.status.grayValid = true → s.grayDim = 0x00200080 →
    (∀ i, i < 4096 → s.readBuf .gray i = some (l i)) →
    ∃ t, exec .encode s = .next t ∧
      t = { s with txbuf := t.txbuf, status := { s.status with frameValid := true, err := 0 } } ∧
      (∀ p y x, p < 4 → y < 32 → x < 128 → ∃ v, t.readBuf .txbuf (4 + 512 * p + 16 * y + x / 8) = some v ∧
        v.getLsbD (x % 8) = (l (128 * y + x)).getLsbD (4 + p)) ∧
      ∀ a, a < 4 ∨ 2052 ≤ a → t.readBuf .txbuf a = s.readBuf .txbuf a

/-- R144: the four planes give back the gray level, the top four bits, of every pixel. -/
def Obligations.EncodeLevelsRecovered : Prop :=
  ∀ (s t : State) (x y : Nat) (v : Byte) (f : Nat → Byte), s.status.grayValid = true → s.grayDim = 0x00200080 →
    exec .encode s = .next t → x < 128 → y < 32 → s.readBuf .gray (128 * y + x) = some v →
    (∀ p, p < 4 → t.readBuf .txbuf (4 + 512 * p + 16 * y + x / 8) = some (f p)) →
    (f 0).toNat / 2 ^ (x % 8) % 2 + 2 * ((f 1).toNat / 2 ^ (x % 8) % 2) + 4 * ((f 2).toNat / 2 ^ (x % 8) % 2) +
      8 * ((f 3).toNat / 2 ^ (x % 8) % 2) = v.toNat / 16

/-- R142, R175: ENCODE without a reduced image sets ERR to 3, and with one of another size than 128 by 32 sets ERR to 1; each changes
nothing else. -/
def Obligations.EncodeRefusesMissingOrMissized : Prop :=
  ∀ s : State,
    (s.status.grayValid = false → exec .encode s = .next { s with status := { s.status with err := 3 } }) ∧
    (s.status.grayValid = true → s.grayDim ≠ 0x00200080 →
      exec .encode s = .next { s with status := { s.status with err := 1 } })

/-- R142: GRAY images that differ only in bits 3 to 0 give the same TXBUF. -/
def Obligations.EncodeIgnoresLowNibble : Prop :=
  ∀ (s t : State) (g : Memory), s.status.grayValid = true → s.grayDim = 0x00200080 →
    (∀ i, i < 4096 → ∃ v w, s.readBuf .gray i = some v ∧ { s with gray := g }.readBuf .gray i = some w ∧
      v.toNat / 16 = w.toNat / 16) →
    exec .encode s = .next t → exec .encode { s with gray := g } = .next { t with gray := g }

/-- R145: ENCODE takes its input from GRAY only: whatever SRC, TOUT and their registers hold, it does the same. -/
def Obligations.EncodeReadsGrayOnly : Prop :=
  ∀ (s t : State) (fmt tfmt : Byte) (dim tint tdim : Word) (src tout : Memory), exec .encode s = .next t →
    exec .encode { s with srcFmt := fmt, srcDim := dim, tint := tint, toutFmt := tfmt, toutDim := tdim, src := src, tout := tout } =
      .next { t with srcFmt := fmt, srcDim := dim, tint := tint, toutFmt := tfmt, toutDim := tdim, src := src, tout := tout }

/-- R45, R103, R142, R145: the pipeline. REDUCE and then ENCODE of a written 128 by 32 GRAY8 source image put bit 4+p of SRC byte
128·y + x at its place in plane p. -/
def Obligations.PipelineFromSourceToFrame : Prop :=
  ∀ (s : State) (l : Nat → Byte), s.srcFmt = 0x00 → s.srcDim = 0x00200080 →
    (∀ i, i < 4096 → s.readBuf .src i = some (l i)) →
    ∃ t u, exec .reduce s = .next t ∧ exec .encode t = .next u ∧ u.status.err = 0 ∧ u.status.frameValid = true ∧
      ∀ p y x, p < 4 → y < 32 → x < 128 → ∃ v, u.readBuf .txbuf (4 + 512 * p + 16 * y + x / 8) = some v ∧
        v.getLsbD (x % 8) = (l (128 * y + x)).getLsbD (4 + p)

/-! ### Every command -/

/-- R12: a command that raises an error changes ERR and nothing else. -/
def Obligations.ErrorsChangeErrOnly : Prop :=
  ∀ (i : Instr) (s t : State), exec i s = .next t → t.status.err ≠ 0 →
    t = { s with status := { s.status with err := t.status.err } }

/-- R12, R171, R175: every error a CMD write can report, its cause, its code and its place in the order of checks. A raised error changes
ERR and nothing else, so a REDUCE that raises one is no model fault; and no other word or state gives a nonzero ERR. -/
def Obligations.ErrorsAndTheirCodes : Prop :=
  ∀ (s : State) (v : Word),
    (4 ≤ v.toNat → dispatch v s = .next { s with status := { s.status with err := 5 } }) ∧
    (v = 1 → 0x04 ≤ s.srcFmt.toNat → dispatch v s = .next { s with status := { s.status with err := 2 } }) ∧
    (v = 1 → s.srcFmt.toNat < 0x04 → params.maxPixels < dimWidth s.srcDim * dimHeight s.srcDim →
      dispatch v s = .next { s with status := { s.status with err := 4 } }) ∧
    (v = 2 ∨ v = 3 → s.status.grayValid = false → dispatch v s = .next { s with status := { s.status with err := 3 } }) ∧
    (v = 3 → s.status.grayValid = true → s.grayDim ≠ 0x00200080 →
      dispatch v s = .next { s with status := { s.status with err := 1 } }) ∧
    ∀ t, dispatch v s = .next t → t.status.err ≠ 0 →
      4 ≤ v.toNat ∨ v = 1 ∧ (0x04 ≤ s.srcFmt.toNat ∨ params.maxPixels < dimWidth s.srcDim * dimHeight s.srcDim) ∨
      (v = 2 ∨ v = 3) ∧ s.status.grayValid = false ∨ v = 3 ∧ s.grayDim ≠ 0x00200080

/-- R170: a command runs as it would whatever ERR holds. -/
def Obligations.ErrNeverReadByCommand : Prop :=
  ∀ (i : Instr) (s : State) (e : BitVec 4), exec i { s with status := { s.status with err := e } } = exec i s

/-- R70, R87: each command writes only its own outputs, and none writes SRC, the host's registers, the fault record or the bus. -/
def Obligations.CommandsTouchOnlyTheirOutputs : Prop :=
  ∀ (i : Instr) (s t : State), exec i s = .next t →
    (i ≠ .reduce → t.gray = s.gray ∧ t.grayDim = s.grayDim ∧ t.status.grayValid = s.status.grayValid) ∧
    (i ≠ .tint → t.tout = s.tout ∧ t.toutFmt = s.toutFmt ∧ t.toutDim = s.toutDim ∧ t.status.toutValid = s.status.toutValid) ∧
    (i ≠ .encode → t.txbuf = s.txbuf ∧ t.status.frameValid = s.status.frameValid) ∧
    t.src = s.src ∧ t.srcFmt = s.srcFmt ∧ t.srcDim = s.srcDim ∧ t.tint = s.tint ∧ t.faultRecord = s.faultRecord ∧
    t.pending = s.pending ∧ t.replies = s.replies

/-- R71, R104, R142: a command that answers a next state answers the same state again: repeating it rewrites what it wrote. -/
def Obligations.CommandsAreIdempotent : Prop :=
  ∀ (i : Instr) (s t : State), exec i s = .next t → exec i t = .next t

/-- R26, R27, R28: no step clears a VALID bit. -/
def Obligations.ValidBitsNeverCleared : Prop :=
  ∀ s t : State, step s = .next t →
    (s.status.grayValid = true → t.status.grayValid = true) ∧ (s.status.toutValid = true → t.status.toutValid = true) ∧
    (s.status.frameValid = true → t.status.frameValid = true)

/-- R26, R27, R28: a step that sets a VALID bit is a command of the unit the bit belongs to: only a CMD write of REDUCE's word sets
GRAY_VALID, only TINT's sets TOUT_VALID, only ENCODE's sets FRAME_VALID. -/
def Obligations.ValidBitsSetByTheirCommand : Prop :=
  ∀ s t : State, step s = .next t →
    (s.status.grayValid = false → t.status.grayValid = true → s.pending = .wr 0x00 0x00000001 :: t.pending) ∧
    (s.status.toutValid = false → t.status.toutValid = true → s.pending = .wr 0x00 0x00000002 :: t.pending) ∧
    (s.status.frameValid = false → t.status.frameValid = true → s.pending = .wr 0x00 0x00000003 :: t.pending)

/-- R24, R32 to R34, R41 to R43, R71, R207: a step that is no CMD write changes no STATUS field, no output register and no engine-owned
buffer: results follow their inputs only when a command runs. -/
def Obligations.OnlyCommandsWriteOutputs : Prop :=
  ∀ (s t : State) (r : Transaction) (rest : List Transaction), s.pending = r :: rest → (∀ v, r ≠ .wr 0x00 v) →
    step s = .next t →
    t = { s with srcFmt := t.srcFmt, srcDim := t.srcDim, tint := t.tint, src := t.src, pending := rest, replies := t.replies }

/-! ### The invariant -/

/-- The invariant holds at reset. -/
def Obligations.ResetMeetsInvariant : Prop := State.reset.Inv

/-- Every step keeps the invariant: canonical buffers inside their ranges, a legal ERR, and the VALID bits telling the truth about GRAY,
TOUT and TXBUF (R25 to R28, R32 to R34, R41 to R43, R60). -/
def Obligations.StepKeepsInvariant : Prop := ∀ s t : State, s.Inv → step s = .next t → t.Inv

/-- R122, R142, R174: where the invariant holds, TINT and ENCODE always complete. -/
def Obligations.TintAndEncodeCannotFault : Prop :=
  ∀ s : State, s.Inv → (∃ t, exec .tint s = .next t) ∧ ∃ t, exec .encode s = .next t

/-- R174: where the invariant holds and no fault is recorded, only REDUCE reading an unwritten SRC byte and a host read of an unwritten
byte raise the model fault. -/
def Obligations.OnlyReduceAndReadsFault : Prop :=
  ∀ (s : State) (b : Buffer) (a : Nat), s.Inv → s.faultRecord = none → step s = .fault (.unwrittenRead b a) →
    (∃ rest, s.pending = .lb b a :: rest ∧ s.readBuf b a = none) ∨
    (∃ rest, s.pending = .wr 0x00 0x00000001 :: rest ∧ b = .src ∧ s.reduceReads a ∧ s.readBuf .src a = none)

/-- R28, R43, R205: where the invariant holds, the payload reads as written exactly when FRAME_VALID is 1. -/
def Obligations.PayloadWrittenExactlyWhenFrameValid : Prop :=
  ∀ (s : State) (a : Nat), s.Inv → 4 ≤ a → a < 2052 → ((s.readBuf .txbuf a).isSome = true ↔ s.status.frameValid = true)

/-- R8, R37: MAX_PIXELS lies in its range and MAXPIX reads it. -/
def Obligations.MaxPixInRange : Prop :=
  4096 ≤ params.maxPixels ∧ params.maxPixels ≤ 2 ^ 30 ∧ ∀ s : State, (s.readReg params 0x28).toNat = params.maxPixels
end

