-- ==== Sys2Proof/Laws/Memory.lean ====
section
/-! SUPPORT. The laws of the buffers: a read after a write gives the value written, a write leaves every other byte alone, and every
write keeps the canonical form. -/

namespace Sys2Proof.Machine

@[simp] theorem Memory.read_nil (a : Nat) : Memory.read [] a = none := rfl

theorem Memory.read_cons (c : Host.Cell) (m : Memory) (a : Nat) :
    Memory.read (c :: m) a = if c.1 = a then some c.2 else Memory.read m a := rfl

theorem Memory.read_append (m n : Memory) (a : Nat) :
    Memory.read (m ++ n) a = (Memory.read m a).or (Memory.read n a) := by
  induction m with
  | nil => rfl
  | cons c m ih =>
    rw [List.cons_append, read_cons, read_cons, ih]
    split <;> rfl

theorem Memory.read_filter (m : Memory) (q : Nat → Bool) (a : Nat) :
    Memory.read (m.filter (fun c => q c.1)) a = if q a then Memory.read m a else none := by
  induction m with
  | nil => simp
  | cons c m ih =>
    by_cases hc : c.1 = a
    · subst hc
      by_cases hq : q c.1 <;> simp_all [read_cons]
    · by_cases hq : q c.1 <;> simp_all [read_cons]

theorem Memory.read_cellsFrom (bs : List Byte) (a x : Nat) :
    Memory.read (Memory.cellsFrom a bs) x = if a ≤ x then bs[x - a]? else none := by
  induction bs generalizing a with
  | nil => simp [cellsFrom]
  | cons v vs ih =>
    rw [cellsFrom, read_cons, ih]
    rcases Nat.lt_trichotomy a x with h | h | h
    · rw [if_neg (by simp; omega), if_pos (by omega), if_pos (by omega), show x - a = (x - (a + 1)) + 1 by omega,
        List.getElem?_cons_succ]
    · subst h; simp
    · rw [if_neg (by simp; omega), if_neg (by omega), if_neg (by omega)]

/-- All that a splice does to a read: the new bytes where they were stored, everything else as before. -/
theorem Memory.read_splice (m : Memory) (a : Nat) (bs : List Byte) (x : Nat) :
    (m.splice a bs).read x = if a ≤ x ∧ x < a + bs.length then bs[x - a]? else m.read x := by
  rw [splice, read_append, read_append, read_cellsFrom, read_filter m (fun k => decide (k < a)),
    read_filter m (fun k => decide (a + bs.length ≤ k))]
  by_cases h : a ≤ x
  · by_cases h' : x < a + bs.length
    · have : x - a < bs.length := by omega
      have h2 : ¬ (a + bs.length ≤ x) := by omega
      simp [h, h', Nat.not_lt.2 h, h2]
    · have : bs[x - a]? = none := List.getElem?_eq_none (by omega)
      simp [h, h', Nat.not_lt.2 h, this, Nat.le_of_not_lt h']
  · have : ¬ (a + bs.length ≤ x) := by omega
    simp [h, Nat.lt_of_not_le h, this]

theorem Memory.read_splice_of_lt {m : Memory} {a x : Nat} {bs : List Byte} (h : x < a) :
    (m.splice a bs).read x = m.read x := by
  rw [read_splice, if_neg (by omega)]

theorem Memory.read_splice_of_ge {m : Memory} {a x : Nat} {bs : List Byte} (h : a + bs.length ≤ x) :
    (m.splice a bs).read x = m.read x := by
  rw [read_splice, if_neg (by omega)]

theorem Memory.read_splice_at {m : Memory} {a i : Nat} {bs : List Byte} (h : i < bs.length) :
    (m.splice a bs).read (a + i) = some bs[i] := by
  rw [read_splice, if_pos (by omega), Nat.add_sub_cancel_left, List.getElem?_eq_getElem h]

theorem Memory.read_write (m : Memory) (a : Nat) (v : Byte) (x : Nat) :
    (m.write a v).read x = if x = a then some v else m.read x := by
  rw [write, read_splice]
  by_cases h : x = a
  · subst h; simp
  · rw [if_neg (by simp; omega), if_neg h]

@[simp] theorem Memory.read_write_same (m : Memory) (a : Nat) (v : Byte) : (m.write a v).read a = some v := by
  simp [read_write]

theorem Memory.read_write_other {m : Memory} {a x : Nat} {v : Byte} (h : x ≠ a) : (m.write a v).read x = m.read x := by
  simp [read_write, h]

theorem Memory.mem_cellsFrom {bs : List Byte} {a : Nat} {c : Host.Cell} (h : c ∈ Memory.cellsFrom a bs) :
    a ≤ c.1 ∧ c.1 < a + bs.length := by
  induction bs generalizing a with
  | nil => cases h
  | cons v vs ih =>
    rcases List.mem_cons.1 h with rfl | h
    · simp
    · have := ih h
      simp only [List.length_cons]
      omega

theorem Memory.wf_cellsFrom (bs : List Byte) (a : Nat) : Memory.wf (Memory.cellsFrom a bs) := by
  induction bs generalizing a with
  | nil => exact List.Pairwise.nil
  | cons v vs ih => exact List.Pairwise.cons (fun c hc => by have := mem_cellsFrom hc; simp only; omega) (ih (a + 1))

/-- A splice keeps the canonical form. -/
theorem Memory.wf_splice {m : Memory} (a : Nat) (bs : List Byte) (h : m.wf) : (m.splice a bs).wf := by
  refine List.pairwise_append.2 ⟨List.pairwise_append.2 ⟨h.filter _, wf_cellsFrom bs a, ?_⟩, h.filter _, ?_⟩
  · intro c hc d hd
    have hc := (List.mem_filter.1 hc).2
    have hd := mem_cellsFrom hd
    simp at hc
    omega
  · intro c hc d hd
    have hd := (List.mem_filter.1 hd).2
    simp at hd
    rcases List.mem_append.1 hc with hc | hc
    · have hc := (List.mem_filter.1 hc).2
      simp at hc
      omega
    · have hc := mem_cellsFrom hc
      omega

/-- The buffers of the reset state are in canonical form. -/
theorem State.reset_wf : State.reset.src.wf ∧ State.reset.gray.wf ∧ State.reset.tout.wf ∧ State.reset.txbuf.wf :=
  ⟨.nil, .nil, .nil, .nil⟩

theorem Memory.wf_write {m : Memory} (a : Nat) (v : Byte) (h : m.wf) : (m.write a v).wf := wf_splice a [v] h

/-- A splice inside a range keeps every listed address in the range. -/
theorem Memory.within_splice {m : Memory} {lo : Nat} {ok : Nat → Bool} {a : Nat} {bs : List Byte} (h : m.within lo ok)
    (hlo : lo ≤ a) (hok : ∀ x, a ≤ x → x < a + bs.length → ok x = true) : (m.splice a bs).within lo ok := by
  intro c hc
  rcases List.mem_append.1 hc with hc | hc
  · rcases List.mem_append.1 hc with hc | hc
    · exact h c (List.mem_filter.1 hc).1
    · have := mem_cellsFrom hc
      exact ⟨by omega, hok c.1 this.1 this.2⟩
  · exact h c (List.mem_filter.1 hc).1

/-- Storing the same bytes again changes nothing. -/
theorem Memory.splice_splice (m : Memory) (a : Nat) (bs : List Byte) : (m.splice a bs).splice a bs = m.splice a bs := by
  have c1 : (Memory.cellsFrom a bs).filter (fun c => decide (c.1 < a)) = [] := by
    rw [List.filter_eq_nil_iff]
    intro c hc
    have := Memory.mem_cellsFrom hc
    simp
    omega
  have c2 : (Memory.cellsFrom a bs).filter (fun c => decide (a + bs.length ≤ c.1)) = [] := by
    rw [List.filter_eq_nil_iff]
    intro c hc
    have := Memory.mem_cellsFrom hc
    simp
    omega
  have f1 : m.filter (fun c => decide (c.1 < a) && decide (a + bs.length ≤ c.1)) = [] := by
    rw [List.filter_eq_nil_iff]
    intro c _
    simp
    omega
  have f2 : m.filter (fun c => decide (a + bs.length ≤ c.1) && decide (c.1 < a)) = [] := by
    rw [List.filter_eq_nil_iff]
    intro c _
    simp
    omega
  unfold splice
  simp only [List.filter_append, List.filter_filter, c1, c2, f1, f2, Bool.and_self, List.append_nil, List.nil_append]

/-- Storing no bytes changes nothing. -/
theorem Memory.splice_nil (m : Memory) : m.splice 0 [] = m := by simp [splice, cellsFrom]

/-- A read gives a value only where a cell is listed. -/
theorem Memory.mem_of_read {m : Memory} {a : Nat} {v : Byte} (h : m.read a = some v) : (a, v) ∈ m := by
  induction m with
  | nil => cases h
  | cons c m ih =>
    rw [read_cons] at h
    split at h
    · next hc => cases h; subst hc; exact List.mem_cons_self
    · exact List.mem_cons_of_mem _ (ih h)

/-- `collect` succeeds exactly when every element does, with the values in order. -/
theorem collect_eq_ok {f : Nat → Except Nat Byte} {is : List Nat} {vs : List Byte} :
    collect f is = .ok vs ↔ is.map f = vs.map .ok := by
  induction is generalizing vs with
  | nil => cases vs <;> simp [collect]
  | cons i is ih =>
    rw [collect]
    cases hf : f i with
    | error a => cases vs <;> simp [hf]
    | ok v =>
      cases hc : collect f is with
      | error a =>
        have : ∀ ws : List Byte, is.map f ≠ ws.map .ok := fun ws h => by
          rw [ih.2 h] at hc
          cases hc
        cases vs <;> simp_all
      | ok ws =>
        have := (ih (vs := ws)).1 hc
        have inj : Function.Injective (Except.ok (ε := Nat) (α := Byte)) := fun _ _ h => by cases h; rfl
        cases vs with
        | nil => simp
        | cons u us =>
          simp [hf, this, (List.map_injective_iff.2 inj).eq_iff]

theorem collect_length {f : Nat → Except Nat Byte} {is : List Nat} {vs : List Byte} (h : collect f is = .ok vs) :
    vs.length = is.length := by
  have := congrArg List.length (collect_eq_ok.1 h)
  simpa using this.symm

/-- What `collect` over 0, …, n-1 gives at each index. -/
theorem collect_range_getElem {f : Nat → Except Nat Byte} {n : Nat} {vs : List Byte}
    (h : collect f (List.range n) = .ok vs) {i : Nat} (hi : i < n) : ∃ v, f i = .ok v ∧ vs[i]? = some v := by
  have h' := congrArg (fun l => l[i]?) (collect_eq_ok.1 h)
  simp [hi] at h'
  obtain ⟨v, hv, he⟩ := h'
  exact ⟨v, he.symm, hv⟩

theorem collect_range_ok {f : Nat → Except Nat Byte} {n : Nat} {g : Nat → Byte} (h : ∀ i, i < n → f i = .ok (g i)) :
    collect f (List.range n) = .ok ((List.range n).map g) := by
  rw [collect_eq_ok, List.map_map]
  exact List.map_congr_left fun i hi => h i (List.mem_range.1 hi)

theorem collect_congr {f g : Nat → Except Nat Byte} {is : List Nat} (h : ∀ i ∈ is, f i = g i) : collect f is = collect g is := by
  induction is with
  | nil => rfl
  | cons i is ih => rw [collect, collect, h i List.mem_cons_self, ih fun j hj => h j (List.mem_cons_of_mem _ hj)]

/-- `collect` fails with a failure of one of its elements. -/
theorem collect_eq_error {f : Nat → Except Nat Byte} {is : List Nat} {a : Nat} (h : collect f is = .error a) :
    ∃ i ∈ is, f i = .error a := by
  induction is with
  | nil => cases h
  | cons i is ih =>
    rw [collect] at h
    split at h
    · next e hf => cases h; exact ⟨i, List.mem_cons_self, hf⟩
    · split at h
      · next e he =>
        cases h
        obtain ⟨j, hj, hfj⟩ := ih he
        exact ⟨j, List.mem_cons_of_mem _ hj, hfj⟩
      · cases h

theorem Memory.get_eq_ok {m : Memory} {a : Nat} {v : Byte} : m.get a = .ok v ↔ m.read a = some v := by
  unfold get
  cases m.read a <;> simp

theorem Memory.get_eq_error {m : Memory} {a e : Nat} : m.get a = .error e ↔ e = a ∧ m.read a = none := by
  unfold get
  cases m.read a <;> simp [eq_comm]

/-- Reading bytes 0 to n-1 succeeds exactly when they are all written. -/
theorem collect_get_ok {m : Memory} {n : Nat} (h : ∀ a, a < n → (m.read a).isSome = true) :
    ∃ vs, collect m.get (List.range n) = .ok vs ∧ vs.length = n ∧ ∀ i, i < n → vs[i]? = m.read i := by
  have hc := collect_range_ok (f := m.get) (g := fun i => (m.read i).getD 0) (n := n) fun i hi => by
    rw [Memory.get_eq_ok]
    obtain ⟨v, hv⟩ := Option.isSome_iff_exists.1 (h i hi)
    simp [hv]
  refine ⟨_, hc, by simp, fun i hi => ?_⟩
  obtain ⟨v, hv⟩ := Option.isSome_iff_exists.1 (h i hi)
  simp [hi, hv]

end Sys2Proof.Machine
end

