-- ==== Sys2Proof/Laws/Params.lean ====
section
/-! SUPPORT. The parameters: the capacity test says what it should, and the lawful forms built from free functions lose no lawful
function, so the machine's parameters are as open as 00_scope.md R8 leaves them. -/

namespace Sys2Proof

theorem Params.fits_iff (p : Params) (n : Nat) : p.fits n = true ↔ n ≤ p.maxPixels := by
  have := p.maxPixels_ge
  simp only [fits, Bool.or_eq_true, decide_eq_true_eq]
  omega

theorem Params.fits_eq_false (p : Params) (n : Nat) : p.fits n = false ↔ p.maxPixels < n := by
  rw [← Bool.not_eq_true, fits_iff, Nat.not_le]

@[simp] theorem Params.fits_zero (p : Params) : p.fits 0 = true := by simp [fits]

/-- Every lawful LUMA_FN is `lumaOf` of itself (R102). -/
theorem Params.lumaOf_self {f : Byte → Byte → Byte → Byte} (h : ∀ v, f v v v = v) : lumaOf f = f := by
  funext r g b
  unfold lumaOf
  split
  · next e => obtain ⟨rfl, rfl⟩ := e; exact (h r).symm
  · rfl

/-- Every lawful TINT_MUL is `tintMulOf` of itself (R121). -/
theorem Params.tintMulOf_self {f : Byte → Byte → Nat} (h1 : ∀ c, f c 255 = c.toNat) (h0 : ∀ c, f c 0 = 0) :
    tintMulOf f = f := by
  funext c t
  unfold tintMulOf
  split
  · next e => rw [e, h1]
  · split
    · next e => rw [e, h0]
    · rfl

namespace Machine

theorem inRange_src (p : Params) (a : Nat) : inRange p .src a = true ↔ a < 4 * p.maxPixels := by
  simp only [inRange, Params.fits_iff]; omega

theorem inRange_gray (p : Params) (a : Nat) : inRange p .gray a = true ↔ a < p.maxPixels := by
  simp only [inRange, Params.fits_iff]; omega

theorem inRange_tout (p : Params) (a : Nat) : inRange p .tout a = true ↔ a < 4 * p.maxPixels := by
  simp only [inRange, Params.fits_iff]; omega

theorem inRange_txbuf (p : Params) (a : Nat) : inRange p .txbuf a = true ↔ a < 2052 :=
  decide_eq_true_iff (p := a < Config.txbufLen)

end Machine

end Sys2Proof
end

