-- ==== Sys2Proof/Laws/State.lean ====
section
/-! SUPPORT. One lemma per field per named update of State and Status, so that no proof unfolds a record update. -/

namespace Sys2Proof.Machine

section raise
variable (s : State) (e : ErrCode)
@[simp] theorem State.raise_status : (s.raise e).status = s.status.withErr e.code := rfl
@[simp] theorem State.raise_srcFmt : (s.raise e).srcFmt = s.srcFmt := rfl
@[simp] theorem State.raise_srcDim : (s.raise e).srcDim = s.srcDim := rfl
@[simp] theorem State.raise_tint : (s.raise e).tint = s.tint := rfl
@[simp] theorem State.raise_grayDim : (s.raise e).grayDim = s.grayDim := rfl
@[simp] theorem State.raise_toutFmt : (s.raise e).toutFmt = s.toutFmt := rfl
@[simp] theorem State.raise_toutDim : (s.raise e).toutDim = s.toutDim := rfl
@[simp] theorem State.raise_src : (s.raise e).src = s.src := rfl
@[simp] theorem State.raise_gray : (s.raise e).gray = s.gray := rfl
@[simp] theorem State.raise_tout : (s.raise e).tout = s.tout := rfl
@[simp] theorem State.raise_txbuf : (s.raise e).txbuf = s.txbuf := rfl
@[simp] theorem State.raise_faultRecord : (s.raise e).faultRecord = s.faultRecord := rfl
@[simp] theorem State.raise_pending : (s.raise e).pending = s.pending := rfl
@[simp] theorem State.raise_replies : (s.raise e).replies = s.replies := rfl
end raise

section record
variable (s : State) (f : Fault)
@[simp] theorem State.record_status : (s.record f).status = s.status := rfl
@[simp] theorem State.record_srcFmt : (s.record f).srcFmt = s.srcFmt := rfl
@[simp] theorem State.record_srcDim : (s.record f).srcDim = s.srcDim := rfl
@[simp] theorem State.record_tint : (s.record f).tint = s.tint := rfl
@[simp] theorem State.record_grayDim : (s.record f).grayDim = s.grayDim := rfl
@[simp] theorem State.record_toutFmt : (s.record f).toutFmt = s.toutFmt := rfl
@[simp] theorem State.record_toutDim : (s.record f).toutDim = s.toutDim := rfl
@[simp] theorem State.record_src : (s.record f).src = s.src := rfl
@[simp] theorem State.record_gray : (s.record f).gray = s.gray := rfl
@[simp] theorem State.record_tout : (s.record f).tout = s.tout := rfl
@[simp] theorem State.record_txbuf : (s.record f).txbuf = s.txbuf := rfl
@[simp] theorem State.record_faultRecord : (s.record f).faultRecord = some f := rfl
@[simp] theorem State.record_pending : (s.record f).pending = s.pending := rfl
@[simp] theorem State.record_replies : (s.record f).replies = s.replies := rfl
end record

section reply
variable (s : State) (r : Reply)
@[simp] theorem State.reply_status : (s.reply r).status = s.status := rfl
@[simp] theorem State.reply_srcFmt : (s.reply r).srcFmt = s.srcFmt := rfl
@[simp] theorem State.reply_srcDim : (s.reply r).srcDim = s.srcDim := rfl
@[simp] theorem State.reply_tint : (s.reply r).tint = s.tint := rfl
@[simp] theorem State.reply_grayDim : (s.reply r).grayDim = s.grayDim := rfl
@[simp] theorem State.reply_toutFmt : (s.reply r).toutFmt = s.toutFmt := rfl
@[simp] theorem State.reply_toutDim : (s.reply r).toutDim = s.toutDim := rfl
@[simp] theorem State.reply_src : (s.reply r).src = s.src := rfl
@[simp] theorem State.reply_gray : (s.reply r).gray = s.gray := rfl
@[simp] theorem State.reply_tout : (s.reply r).tout = s.tout := rfl
@[simp] theorem State.reply_txbuf : (s.reply r).txbuf = s.txbuf := rfl
@[simp] theorem State.reply_faultRecord : (s.reply r).faultRecord = s.faultRecord := rfl
@[simp] theorem State.reply_pending : (s.reply r).pending = s.pending := rfl
@[simp] theorem State.reply_replies : (s.reply r).replies = r :: s.replies := rfl
end reply

section withPending
variable (s : State) (ts : List Transaction)
@[simp] theorem State.withPending_status : (s.withPending ts).status = s.status := rfl
@[simp] theorem State.withPending_srcFmt : (s.withPending ts).srcFmt = s.srcFmt := rfl
@[simp] theorem State.withPending_srcDim : (s.withPending ts).srcDim = s.srcDim := rfl
@[simp] theorem State.withPending_tint : (s.withPending ts).tint = s.tint := rfl
@[simp] theorem State.withPending_grayDim : (s.withPending ts).grayDim = s.grayDim := rfl
@[simp] theorem State.withPending_toutFmt : (s.withPending ts).toutFmt = s.toutFmt := rfl
@[simp] theorem State.withPending_toutDim : (s.withPending ts).toutDim = s.toutDim := rfl
@[simp] theorem State.withPending_src : (s.withPending ts).src = s.src := rfl
@[simp] theorem State.withPending_gray : (s.withPending ts).gray = s.gray := rfl
@[simp] theorem State.withPending_tout : (s.withPending ts).tout = s.tout := rfl
@[simp] theorem State.withPending_txbuf : (s.withPending ts).txbuf = s.txbuf := rfl
@[simp] theorem State.withPending_faultRecord : (s.withPending ts).faultRecord = s.faultRecord := rfl
@[simp] theorem State.withPending_pending : (s.withPending ts).pending = ts := rfl
@[simp] theorem State.withPending_replies : (s.withPending ts).replies = s.replies := rfl
end withPending

section reduced
variable (s : State) (luma : List Byte)
@[simp] theorem State.reduced_status : (s.reduced luma).status = s.status.reduced := rfl
@[simp] theorem State.reduced_srcFmt : (s.reduced luma).srcFmt = s.srcFmt := rfl
@[simp] theorem State.reduced_srcDim : (s.reduced luma).srcDim = s.srcDim := rfl
@[simp] theorem State.reduced_tint : (s.reduced luma).tint = s.tint := rfl
@[simp] theorem State.reduced_grayDim : (s.reduced luma).grayDim = s.srcDim := rfl
@[simp] theorem State.reduced_toutFmt : (s.reduced luma).toutFmt = s.toutFmt := rfl
@[simp] theorem State.reduced_toutDim : (s.reduced luma).toutDim = s.toutDim := rfl
@[simp] theorem State.reduced_src : (s.reduced luma).src = s.src := rfl
@[simp] theorem State.reduced_gray : (s.reduced luma).gray = s.gray.splice 0 luma := rfl
@[simp] theorem State.reduced_tout : (s.reduced luma).tout = s.tout := rfl
@[simp] theorem State.reduced_txbuf : (s.reduced luma).txbuf = s.txbuf := rfl
@[simp] theorem State.reduced_faultRecord : (s.reduced luma).faultRecord = s.faultRecord := rfl
@[simp] theorem State.reduced_pending : (s.reduced luma).pending = s.pending := rfl
@[simp] theorem State.reduced_replies : (s.reduced luma).replies = s.replies := rfl
end reduced

section tinted
variable (s : State) (fmt : Byte) (bytes : List Byte)
@[simp] theorem State.tinted_status : (s.tinted fmt bytes).status = s.status.tinted := rfl
@[simp] theorem State.tinted_srcFmt : (s.tinted fmt bytes).srcFmt = s.srcFmt := rfl
@[simp] theorem State.tinted_srcDim : (s.tinted fmt bytes).srcDim = s.srcDim := rfl
@[simp] theorem State.tinted_tint : (s.tinted fmt bytes).tint = s.tint := rfl
@[simp] theorem State.tinted_grayDim : (s.tinted fmt bytes).grayDim = s.grayDim := rfl
@[simp] theorem State.tinted_toutFmt : (s.tinted fmt bytes).toutFmt = fmt := rfl
@[simp] theorem State.tinted_toutDim : (s.tinted fmt bytes).toutDim = s.grayDim := rfl
@[simp] theorem State.tinted_src : (s.tinted fmt bytes).src = s.src := rfl
@[simp] theorem State.tinted_gray : (s.tinted fmt bytes).gray = s.gray := rfl
@[simp] theorem State.tinted_tout : (s.tinted fmt bytes).tout = s.tout.splice 0 bytes := rfl
@[simp] theorem State.tinted_txbuf : (s.tinted fmt bytes).txbuf = s.txbuf := rfl
@[simp] theorem State.tinted_faultRecord : (s.tinted fmt bytes).faultRecord = s.faultRecord := rfl
@[simp] theorem State.tinted_pending : (s.tinted fmt bytes).pending = s.pending := rfl
@[simp] theorem State.tinted_replies : (s.tinted fmt bytes).replies = s.replies := rfl
end tinted

section encoded
variable (s : State) (luma : List Byte)
@[simp] theorem State.encoded_status : (s.encoded luma).status = s.status.encoded := rfl
@[simp] theorem State.encoded_srcFmt : (s.encoded luma).srcFmt = s.srcFmt := rfl
@[simp] theorem State.encoded_srcDim : (s.encoded luma).srcDim = s.srcDim := rfl
@[simp] theorem State.encoded_tint : (s.encoded luma).tint = s.tint := rfl
@[simp] theorem State.encoded_grayDim : (s.encoded luma).grayDim = s.grayDim := rfl
@[simp] theorem State.encoded_toutFmt : (s.encoded luma).toutFmt = s.toutFmt := rfl
@[simp] theorem State.encoded_toutDim : (s.encoded luma).toutDim = s.toutDim := rfl
@[simp] theorem State.encoded_src : (s.encoded luma).src = s.src := rfl
@[simp] theorem State.encoded_gray : (s.encoded luma).gray = s.gray := rfl
@[simp] theorem State.encoded_tout : (s.encoded luma).tout = s.tout := rfl
@[simp] theorem State.encoded_txbuf : (s.encoded luma).txbuf = s.txbuf.splice 4 (payload luma) := rfl
@[simp] theorem State.encoded_faultRecord : (s.encoded luma).faultRecord = s.faultRecord := rfl
@[simp] theorem State.encoded_pending : (s.encoded luma).pending = s.pending := rfl
@[simp] theorem State.encoded_replies : (s.encoded luma).replies = s.replies := rfl
end encoded

section statusUpdates
variable (st : Status) (v : BitVec 4)
@[simp] theorem Status.withErr_err : (st.withErr v).err = v := rfl
@[simp] theorem Status.withErr_grayValid : (st.withErr v).grayValid = st.grayValid := rfl
@[simp] theorem Status.withErr_toutValid : (st.withErr v).toutValid = st.toutValid := rfl
@[simp] theorem Status.withErr_frameValid : (st.withErr v).frameValid = st.frameValid := rfl
@[simp] theorem Status.reduced_err : st.reduced.err = 0 := rfl
@[simp] theorem Status.reduced_grayValid : st.reduced.grayValid = true := rfl
@[simp] theorem Status.reduced_toutValid : st.reduced.toutValid = st.toutValid := rfl
@[simp] theorem Status.reduced_frameValid : st.reduced.frameValid = st.frameValid := rfl
@[simp] theorem Status.tinted_err : st.tinted.err = 0 := rfl
@[simp] theorem Status.tinted_grayValid : st.tinted.grayValid = st.grayValid := rfl
@[simp] theorem Status.tinted_toutValid : st.tinted.toutValid = true := rfl
@[simp] theorem Status.tinted_frameValid : st.tinted.frameValid = st.frameValid := rfl
@[simp] theorem Status.encoded_err : st.encoded.err = 0 := rfl
@[simp] theorem Status.encoded_grayValid : st.encoded.grayValid = st.grayValid := rfl
@[simp] theorem Status.encoded_toutValid : st.encoded.toutValid = st.toutValid := rfl
@[simp] theorem Status.encoded_frameValid : st.encoded.frameValid = true := rfl
end statusUpdates

end Sys2Proof.Machine
end

