-- ==== Sys2Proof/Laws/Commands.lean ====
section
/-! SUPPORT. Once for each command, everything it can answer (43_control.md R161, 40_color_reducer.md R104, 41_tint_shader.md R122,
42_frame_encoder.md R142). Later proofs take a command apart with these and never unfold it. -/

namespace Sys2Proof.Machine

/-- NOP answers one thing. -/
theorem execNop_eq (s : State) : execNop s = .next { s with status := s.status.withErr 0 } := rfl

/-- All that REDUCE answers. -/
theorem reduceWith_cases (p : Params) (s : State) :
    (PixFormat.ofCode s.srcFmt = none ∧ reduceWith p s = .next (s.raise .unsupportedFormat)) ∨
    ∃ f, PixFormat.ofCode s.srcFmt = some f ∧
      ((p.fits (pixelCount s.srcDim) = false ∧ reduceWith p s = .next (s.raise .capacityExceeded)) ∨
       (p.fits (pixelCount s.srcDim) = true ∧
         ((∃ luma, collect (pixLuma p f s.src) (List.range (pixelCount s.srcDim)) = .ok luma ∧
            reduceWith p s = .next (s.reduced luma)) ∨
          ∃ a, collect (pixLuma p f s.src) (List.range (pixelCount s.srcDim)) = .error a ∧
            reduceWith p s = .fault (.unwrittenRead .src a)))) := by
  unfold reduceWith
  cases PixFormat.ofCode s.srcFmt with
  | none => exact .inl ⟨rfl, rfl⟩
  | some f =>
    refine .inr ⟨f, rfl, ?_⟩
    cases hp : p.fits (pixelCount s.srcDim) with
    | false => exact .inl ⟨rfl, by simp⟩
    | true =>
      refine .inr ⟨rfl, ?_⟩
      cases hc : collect (pixLuma p f s.src) (List.range (pixelCount s.srcDim)) with
      | ok luma => exact .inl ⟨luma, rfl, by simp [hc]⟩
      | error a => exact .inr ⟨a, rfl, by simp [hc]⟩

/-- All that TINT answers. -/
theorem tintWith_cases (p : Params) (s : State) :
    (s.status.grayValid = false ∧ tintWith p s = .next (s.raise .inputNotValid)) ∨
    s.status.grayValid = true ∧
      ((∃ luma, collect s.gray.get (List.range (pixelCount s.grayDim)) = .ok luma ∧
          ((tintA s.tint = 0 ∧ tintWith p s = .next (s.tinted PixFormat.gray8Code luma)) ∨
           (tintA s.tint ≠ 0 ∧ tintWith p s = .next (s.tinted PixFormat.bgr32Code (luma.flatMap (shadePixel p s.tint)))))) ∨
        ∃ a, collect s.gray.get (List.range (pixelCount s.grayDim)) = .error a ∧
          tintWith p s = .fault (.unwrittenRead .gray a)) := by
  unfold tintWith
  cases hg : s.status.grayValid with
  | false => exact .inl ⟨rfl, by simp⟩
  | true =>
    refine .inr ⟨rfl, ?_⟩
    cases hc : collect s.gray.get (List.range (pixelCount s.grayDim)) with
    | ok luma =>
      refine .inl ⟨luma, rfl, ?_⟩
      by_cases ha : tintA s.tint = 0
      · exact .inl ⟨ha, by simp [ha]⟩
      · exact .inr ⟨ha, by dsimp only; rw [if_pos rfl, if_neg ha]⟩
    | error a => exact .inr ⟨a, rfl, by simp⟩

/-- All that ENCODE answers. -/
theorem execEncode_cases (s : State) :
    (s.status.grayValid = false ∧ execEncode s = .next (s.raise .inputNotValid)) ∨
    (s.status.grayValid = true ∧ ¬ (dimWidth s.grayDim = 128 ∧ dimHeight s.grayDim = 32) ∧
      execEncode s = .next (s.raise .dimensionMismatch)) ∨
    (s.status.grayValid = true ∧ (dimWidth s.grayDim = 128 ∧ dimHeight s.grayDim = 32) ∧
      ((∃ luma, collect s.gray.get (List.range 4096) = .ok luma ∧ execEncode s = .next (s.encoded luma)) ∨
        ∃ a, collect s.gray.get (List.range 4096) = .error a ∧ execEncode s = .fault (.unwrittenRead .gray a))) := by
  have hn : Config.nativeW * Config.nativeH = 4096 := rfl
  unfold execEncode
  rw [hn]
  cases hg : s.status.grayValid with
  | false => exact .inl ⟨rfl, by simp⟩
  | true =>
    by_cases hd : dimWidth s.grayDim = 128 ∧ dimHeight s.grayDim = 32
    · refine .inr (.inr ⟨rfl, hd, ?_⟩)
      cases hc : collect s.gray.get (List.range 4096) with
      | ok luma => exact .inl ⟨luma, rfl, by simp [Config.nativeW, Config.nativeH, hd]⟩
      | error a => exact .inr ⟨a, rfl, by simp [Config.nativeW, Config.nativeH, hd]⟩
    · exact .inr (.inl ⟨rfl, hd, by simp [Config.nativeW, Config.nativeH, hd]⟩)

/-- A command answers a next state or the model fault, never a refusal. -/
theorem exec_next_or_fault (i : Instr) (s : State) :
    (∃ t, exec i s = .next t) ∨ ∃ b a, exec i s = .fault (.unwrittenRead b a) := by
  cases i with
  | nop => exact .inl ⟨_, rfl⟩
  | reduce =>
    rcases reduceWith_cases params s with ⟨-, hr⟩ | ⟨f, -, ⟨-, hr⟩ | ⟨-, ⟨luma, -, hr⟩ | ⟨a, -, hr⟩⟩⟩
    · exact .inl ⟨_, hr⟩
    · exact .inl ⟨_, hr⟩
    · exact .inl ⟨_, hr⟩
    · exact .inr ⟨_, _, hr⟩
  | tint =>
    rcases tintWith_cases params s with ⟨-, hr⟩ | ⟨-, ⟨luma, -, ⟨-, hr⟩ | ⟨-, hr⟩⟩ | ⟨a, -, hr⟩⟩
    · exact .inl ⟨_, hr⟩
    · exact .inl ⟨_, hr⟩
    · exact .inl ⟨_, hr⟩
    · exact .inr ⟨_, _, hr⟩
  | encode =>
    rcases execEncode_cases s with ⟨-, hr⟩ | ⟨-, -, hr⟩ | ⟨-, -, ⟨luma, -, hr⟩ | ⟨a, -, hr⟩⟩
    · exact .inl ⟨_, hr⟩
    · exact .inl ⟨_, hr⟩
    · exact .inl ⟨_, hr⟩
    · exact .inr ⟨_, _, hr⟩

/-- Every next state a command answers, by name: an error raised, NOP's, or the writes of one of the three units. -/
theorem exec_next {i : Instr} {s t : State} (h : exec i s = .next t) :
    (∃ e, t = s.raise e) ∨
    (i = .nop ∧ t = { s with status := s.status.withErr 0 }) ∨
    (i = .reduce ∧ ∃ luma, luma.length = pixelCount s.srcDim ∧ params.fits (pixelCount s.srcDim) = true ∧ t = s.reduced luma) ∨
    (i = .tint ∧ s.status.grayValid = true ∧ ∃ luma, luma.length = pixelCount s.grayDim ∧
      ((tintA s.tint = 0 ∧ t = s.tinted PixFormat.gray8Code luma) ∨
       (tintA s.tint ≠ 0 ∧ t = s.tinted PixFormat.bgr32Code (luma.flatMap (shadePixel params s.tint))))) ∨
    (i = .encode ∧ s.status.grayValid = true ∧ ∃ luma, luma.length = 4096 ∧ t = s.encoded luma) := by
  cases i with
  | nop => cases h; exact .inr (.inl ⟨rfl, rfl⟩)
  | reduce =>
    change reduceWith params s = _ at h
    rcases reduceWith_cases params s with ⟨-, hr⟩ | ⟨f, -, ⟨-, hr⟩ | ⟨hp, ⟨luma, hc, hr⟩ | ⟨a, -, hr⟩⟩⟩ <;> rw [hr] at h <;> cases h
    · exact .inl ⟨_, rfl⟩
    · exact .inl ⟨_, rfl⟩
    · exact .inr (.inr (.inl ⟨rfl, luma, by rw [collect_length hc, List.length_range], hp, rfl⟩))
  | tint =>
    change tintWith params s = _ at h
    rcases tintWith_cases params s with ⟨-, hr⟩ | ⟨hg, ⟨luma, hc, hr⟩ | ⟨a, -, hr⟩⟩
    · rw [hr] at h; cases h; exact .inl ⟨_, rfl⟩
    · refine .inr (.inr (.inr (.inl ⟨rfl, hg, luma, by rw [collect_length hc, List.length_range], ?_⟩)))
      rcases hr with ⟨ha, hr⟩ | ⟨ha, hr⟩ <;> rw [hr] at h <;> cases h
      · exact .inl ⟨ha, rfl⟩
      · exact .inr ⟨ha, rfl⟩
    · rw [hr] at h; cases h
  | encode =>
    change execEncode s = _ at h
    rcases execEncode_cases s with ⟨-, hr⟩ | ⟨-, -, hr⟩ | ⟨hg, -, ⟨luma, hc, hr⟩ | ⟨a, -, hr⟩⟩ <;> rw [hr] at h <;> cases h
    · exact .inl ⟨_, rfl⟩
    · exact .inl ⟨_, rfl⟩
    · exact .inr (.inr (.inr (.inr ⟨rfl, hg, luma, by rw [collect_length hc, List.length_range], rfl⟩)))

end Sys2Proof.Machine
end

