-- ==== Sys2Proof/Laws/Decode.lean ====
section
/-! SUPPORT. The decoder taken apart once: what it answers on every 32-bit word (30_encoding.md R86, R88). -/

namespace Sys2Proof

/-- RSVD is 0 exactly when the value is below 16. -/
theorem rsvd_eq_zero_iff (v : Word) : v.extractLsb' 4 28 = 0 ↔ v.toNat / 16 = 0 := by
  have := v.isLt
  rw [← BitVec.toNat_inj, BitVec.extractLsb'_toNat, Nat.shiftRight_eq_div_pow]
  change v.toNat / 2 ^ 4 % 2 ^ 28 = 0 ↔ _
  omega

/-- OP is the value modulo 16. -/
theorem op_toNat (v : Word) : (v.extractLsb' 0 4).toNat = v.toNat % 16 := by
  rw [BitVec.extractLsb'_toNat, Nat.shiftRight_zero]

/-- All that the decoder answers. -/
theorem decode_cases (v : Word) :
    (v = 0 ∧ decode v = .ok .nop) ∨ (v = 1 ∧ decode v = .ok .reduce) ∨ (v = 2 ∧ decode v = .ok .tint) ∨
    (v = 3 ∧ decode v = .ok .encode) ∨ (v.toNat / 16 = 0 ∧ 4 ≤ v.toNat % 16 ∧ decode v = .error .opcode) ∨
    (v.toNat / 16 ≠ 0 ∧ decode v = .error .reservedBits) := by
  by_cases h : v.toNat / 16 = 0
  · have key : ∀ n, n < 16 → v.toNat % 16 = n → v = BitVec.ofNat 32 n := fun n hn h => by
      apply BitVec.eq_of_toNat_eq
      rw [BitVec.toNat_ofNat]
      omega
    have hop : (cmdOp v).toNat = v.toNat % 16 := op_toNat v
    have hrs : cmdRsvd v = 0 := (rsvd_eq_zero_iff v).2 h
    rcases hv : v.toNat % 16 with _ | _ | _ | _ | n
    · exact .inl ⟨key 0 (by omega) hv, by simp [decode, hrs, hop, hv]⟩
    · exact .inr (.inl ⟨key 1 (by omega) hv, by simp [decode, hrs, hop, hv]⟩)
    · exact .inr (.inr (.inl ⟨key 2 (by omega) hv, by simp [decode, hrs, hop, hv]⟩))
    · exact .inr (.inr (.inr (.inl ⟨key 3 (by omega) hv, by simp [decode, hrs, hop, hv]⟩)))
    · exact .inr (.inr (.inr (.inr (.inl ⟨h, by omega, by simp [decode, hrs, hop, hv]⟩))))
  · exact .inr (.inr (.inr (.inr (.inr ⟨h, by
      have hrs : ¬ cmdRsvd v = 0 := fun e => h ((rsvd_eq_zero_iff v).1 e)
      rw [decode, if_neg hrs]⟩))))

end Sys2Proof
end

