-- ==== Sys2Proof/Laws/FrameEncoder.lean ====
section
/-! SUPPORT. The packing of the Frame Encoder: what the groups of an image are, how long the payload is and where each plane byte lies
(42_frame_encoder.md R140 to R142). -/

namespace Sys2Proof.Machine

theorem bitOf_getLsbD (v : Byte) (i k : Nat) : (bitOf v i).getLsbD k = (decide (k = 0) && v.getLsbD i) := by
  rw [bitOf, BitVec.getLsbD_and, BitVec.getLsbD_ushiftRight]
  cases k with
  | zero => simp
  | succ k => simp

@[simp] theorem packGroup_nil (b : Nat) : packGroup [] b = 0 := rfl

theorem packGroup_cons (x : Byte) (s : List Byte) (b : Nat) :
    packGroup (x :: s) b = (packGroup s b <<< 1) ||| bitOf x b := rfl

/-- The groups of a list of 8·n samples: n groups. -/
theorem groups_length (n : Nat) (l : List Byte) (h : l.length = 8 * n) : (groups l).length = n := by
  induction n generalizing l with
  | zero => obtain rfl := List.eq_nil_of_length_eq_zero h; rfl
  | succ n ih =>
    match l, h with
    | a :: b :: c :: d :: e :: f :: g :: i :: rest, h =>
      rw [groups, List.length_cons, ih rest (by simp only [List.length_cons] at h; omega)]

/-- Sample v of group r is sample 8·r + v. -/
theorem groups_getElem (n : Nat) (l : List Byte) (h : l.length = 8 * n) (r : Nat) (hr : r < n) :
    ∃ s, (groups l)[r]? = some s ∧ s.length = 8 ∧ ∀ v, v < 8 → s[v]? = l[8 * r + v]? := by
  induction n generalizing l r with
  | zero => omega
  | succ n ih =>
    match l, h with
    | a :: b :: c :: d :: e :: f :: g :: i :: rest, h =>
      cases r with
      | zero =>
        refine ⟨_, by rw [groups]; rfl, rfl, fun v hv => ?_⟩
        match v, hv with
        | 0, _ | 1, _ | 2, _ | 3, _ | 4, _ | 5, _ | 6, _ | 7, _ => rfl
      | succ r =>
        obtain ⟨s, hs, hl, hv⟩ := ih rest (by simp only [List.length_cons] at h; omega) r (by omega)
        refine ⟨s, by rw [groups, List.getElem?_cons_succ, hs], hl, fun v hv' => ?_⟩
        rw [hv v hv', show 8 * (r + 1) + v = 8 * r + v + 8 by omega]
        rfl

theorem plane_length (n : Nat) (l : List Byte) (h : l.length = 8 * n) (p : Nat) : (plane l p).length = n := by
  rw [plane, List.length_map, groups_length n l h]

theorem payload_length (l : List Byte) (h : l.length = 4096) : (payload l).length = 2048 := by
  simp only [payload, List.length_append, plane_length 512 l h]

/-- Four blocks of one length, one after the other: element r of block p. -/
theorem getElem_four_blocks {α : Type} {n : Nat} (f : Nat → List α) (hl : ∀ p, (f p).length = n) {p r : Nat} (hp : p < 4)
    (hr : r < n) : (f 0 ++ f 1 ++ f 2 ++ f 3)[n * p + r]? = (f p)[r]? := by
  have cut : ∀ (a b : List α) (k i : Nat), a.length = k → (a ++ b)[k + i]? = b[i]? := fun a b k i h => by
    rw [List.getElem?_append_right (by omega), h, Nat.add_sub_cancel_left]
  simp only [List.append_assoc]
  match p, hp with
  | 0, _ => rw [Nat.mul_zero, Nat.zero_add, List.getElem?_append_left (by rw [hl]; exact hr)]
  | 1, _ => rw [Nat.mul_one, cut _ _ _ _ (hl 0), List.getElem?_append_left (by rw [hl]; exact hr)]
  | 2, _ =>
    rw [show n * 2 + r = n + (n + r) by omega, cut _ _ _ _ (hl 0), cut _ _ _ _ (hl 1),
      List.getElem?_append_left (by rw [hl]; exact hr)]
  | 3, _ =>
    rw [show n * 3 + r = n + (n + (n + r)) by omega, cut _ _ _ _ (hl 0), cut _ _ _ _ (hl 1), cut _ _ _ _ (hl 2)]

/-- Byte r of plane p is payload byte r + 512·p. -/
theorem payload_getElem (l : List Byte) (h : l.length = 4096) {p r : Nat} (hp : p < 4) (hr : r < 512) :
    (payload l)[512 * p + r]? = (plane l p)[r]? :=
  getElem_four_blocks (plane l) (plane_length 512 l h) hp hr

/-- Byte r of plane p packs bit 4 + p of the group of samples 8·r to 8·r + 7. -/
theorem plane_getElem (l : List Byte) (h : l.length = 4096) (p r : Nat) (hr : r < 512) :
    ∃ s, (plane l p)[r]? = some (packGroup s (4 + p)) ∧ s.length = 8 ∧ ∀ v, v < 8 → s[v]? = l[8 * r + v]? := by
  obtain ⟨s, hs, hl, hv⟩ := groups_getElem 512 l h r hr
  exact ⟨s, by rw [plane, List.getElem?_map, hs]; rfl, hl, hv⟩

end Sys2Proof.Machine
end

