-- ==== Sys2Proof/Laws/HostAccess.lean ====
section
/-! SUPPORT. What a host transaction does (20_memory.md R61 to R68) and everything a step can answer, said once. -/

namespace Sys2Proof.Machine

theorem admit_rd {off : Nat} (h4 : off % 4 = 0) (hm : off ≤ 0xFC) (p : Params) :
    admission p (.rd off) = .ok (.regRead off) := by
  simp [admission, admitReg, Transaction.rd, h4, Nat.not_lt.2 hm]

theorem admit_wr {off : Nat} (h4 : off % 4 = 0) (hm : off ≤ 0xFC) (v : Word) (p : Params) :
    admission p (.wr off v) = .ok (.regWrite off v) := by
  simp [admission, admitReg, Transaction.wr, h4, Nat.not_lt.2 hm, v.isLt]

theorem admit_lb {p : Params} {b : Buffer} {a : Nat} (h : inRange p b a = true) :
    admission p (.lb b a) = .ok (.bufRead b a) := by
  simp [admission, admitBuf, Transaction.lb, h]

theorem admit_sb {p : Params} {b : Buffer} {a : Nat} (h : inRange p b a = true) (v : Byte) :
    admission p (.sb b a v) = .ok (.bufWrite b a v) := by
  simp [admission, admitBuf, Transaction.sb, h, v.isLt]

/-- Every admitted transaction is one of the four statements of R90, inside the bounds of its space (R61 to R68). -/
theorem admit_ok {p : Params} {t : Transaction} {acc : Access} (h : admission p t = .ok acc) :
    (∃ off, t = .rd off ∧ off % 4 = 0 ∧ off ≤ 0xFC ∧ acc = .regRead off) ∨
    (∃ off v, t = .wr off v ∧ off % 4 = 0 ∧ off ≤ 0xFC ∧ acc = .regWrite off v) ∨
    (∃ b a, t = .lb b a ∧ inRange p b a = true ∧ acc = .bufRead b a) ∨
    (∃ b a v, t = .sb b a v ∧ inRange p b a = true ∧ acc = .bufWrite b a v) := by
  obtain ⟨sp, a, w, d⟩ := t
  cases sp with
  | reg =>
    simp only [admission, admitReg] at h
    split at h
    · cases h
    · split at h
      · cases h
      · split at h
        · cases h
        · rename_i hw h4 hm
          obtain rfl : w = 32 := by omega
          cases d with
          | none => cases h; exact .inl ⟨a, rfl, by omega, by omega, rfl⟩
          | some n =>
            simp only at h
            split at h
            · next hn =>
              cases h
              refine .inr (.inl ⟨a, BitVec.ofNat 32 n, ?_, by omega, by omega, rfl⟩)
              rw [Transaction.wr, BitVec.toNat_ofNat, Nat.mod_eq_of_lt hn]
            · cases h
  | buf b =>
    simp only [admission, admitBuf] at h
    split at h
    · cases h
    · split at h
      · cases h
      · rename_i hw hr
        obtain rfl : w = 8 := by omega
        have hr : inRange p b a = true := by simpa using hr
        cases d with
        | none => cases h; exact .inr (.inr (.inl ⟨b, a, rfl, hr, rfl⟩))
        | some n =>
          simp only at h
          split at h
          · next hn =>
            cases h
            refine .inr (.inr (.inr ⟨b, a, BitVec.ofNat 8 n, ?_, hr, rfl⟩))
            rw [Transaction.sb, BitVec.toNat_ofNat, Nat.mod_eq_of_lt hn]
          · cases h

/-- A host write of a buffer is admitted only inside the buffer's range (R67, R68). -/
theorem inRange_of_admit_write {p : Params} {t : Transaction} {b : Buffer} {a : Nat} {v : Byte}
    (h : admission p t = .ok (.bufWrite b a v)) : inRange p b a = true := by
  rcases admit_ok h with ⟨_, _, _, _, e⟩ | ⟨_, _, _, _, _, e⟩ | ⟨_, _, _, _, e⟩ | ⟨_, _, _, _, hr, e⟩ <;> cases e
  exact hr

theorem Reg.ofOffset_unmapped {off : Nat} (h : 0x2C ≤ off) : Reg.ofOffset off = none := by
  unfold Reg.ofOffset
  rw [List.find?_eq_none]
  intro r _
  cases r <;> simp [Reg.offset] <;> omega

theorem Reg.ofOffset_eq_some {off : Nat} {r : Reg} (h : Reg.ofOffset off = some r) : off = r.offset := by
  have := List.find?_some (p := fun r : Reg => r.offset == off) h
  exact (beq_iff_eq.1 this).symm

@[simp] theorem State.withPending_readBuf (s : State) (ts : List Transaction) (b : Buffer) (a : Nat) :
    (s.withPending ts).readBuf b a = s.readBuf b a := by
  cases b <;> rfl

@[simp] theorem State.reply_readBuf (s : State) (r : Reply) (b : Buffer) (a : Nat) :
    (s.reply r).readBuf b a = s.readBuf b a := by
  cases b <;> rfl

@[simp] theorem State.withPending_readReg (s : State) (ts : List Transaction) (p : Params) (off : Nat) :
    (s.withPending ts).readReg p off = s.readReg p off := by
  unfold State.readReg
  cases Reg.ofOffset off with
  | none => rfl
  | some r => cases r <;> rfl

@[simp] theorem State.reply_readReg (s : State) (r : Reply) (p : Params) (off : Nat) :
    (s.reply r).readReg p off = s.readReg p off := by
  unfold State.readReg
  cases Reg.ofOffset off with
  | none => rfl
  | some r => cases r <;> rfl

/-- Everything a host register write other than of CMD can do (R62). -/
theorem State.writeReg_cases (s : State) (off : Nat) (v : Word) :
    (off = 0x08 ∧ s.writeReg off v = { s with srcFmt := v.setWidth 8 }) ∨ (off = 0x0C ∧ s.writeReg off v = { s with srcDim := v }) ∨
    (off = 0x10 ∧ s.writeReg off v = { s with tint := v }) ∨
    (off ≠ 0x08 ∧ off ≠ 0x0C ∧ off ≠ 0x10 ∧ s.writeReg off v = s) := by
  by_cases h1 : off = 0x08
  · subst h1; exact .inl ⟨rfl, rfl⟩
  by_cases h2 : off = 0x0C
  · subst h2; exact .inr (.inl ⟨rfl, rfl⟩)
  by_cases h3 : off = 0x10
  · subst h3; exact .inr (.inr (.inl ⟨rfl, rfl⟩))
  refine .inr (.inr (.inr ⟨h1, h2, h3, ?_⟩))
  unfold State.writeReg
  split <;> rename_i h
  · exact absurd (Reg.ofOffset_eq_some h) h1
  · exact absurd (Reg.ofOffset_eq_some h) h2
  · exact absurd (Reg.ofOffset_eq_some h) h3
  · rfl

/-- The next transaction of a state with an empty fault record decides its step. -/
theorem step_pending {s : State} {t : Transaction} {rest : List Transaction} (hf : s.faultRecord = none)
    (hp : s.pending = t :: rest) : step s = transact t (s.withPending rest) := by
  simp [step, stepOnce, hf, hp]

theorem transact_ok {t : Transaction} {acc : Access} {s : State} (h : admission params t = .ok acc) :
    transact t s = perform params acc s := by
  simp [transact, h]

/-- Every next state a step answers: nothing pending, a register read, a register write, a command (or an illegal one), a buffer read,
a buffer write. -/
theorem step_next {s s' : State} (h : step s = .next s') :
    s.faultRecord = none ∧
    ((s.pending = [] ∧ s' = s) ∨
     ∃ t rest, s.pending = t :: rest ∧
      ((∃ off, admission params t = .ok (.regRead off) ∧
          s' = (s.withPending rest).reply (.word ((s.withPending rest).readReg params off))) ∨
       (∃ off v, admission params t = .ok (.regWrite off v) ∧ off ≠ 0 ∧ s' = (s.withPending rest).writeReg off v) ∨
       (∃ v i, admission params t = .ok (.regWrite 0 v) ∧ decode v = .ok i ∧ exec i (s.withPending rest) = .next s') ∨
       (∃ v e, admission params t = .ok (.regWrite 0 v) ∧ decode v = .error e ∧ s' = (s.withPending rest).raise .illegalCommand) ∨
       (∃ b a v, admission params t = .ok (.bufRead b a) ∧ (s.withPending rest).readBuf b a = some v ∧
          s' = (s.withPending rest).reply (.byte v)) ∨
       (∃ b a v, admission params t = .ok (.bufWrite b a v) ∧ s' = (s.withPending rest).writeBuf b a v))) := by
  unfold step stepOnce at h
  split at h
  · cases h
  next hf =>
  refine ⟨hf, ?_⟩
  split at h
  · next hp => cases h; exact .inl ⟨hp, rfl⟩
  next t rest hp =>
  refine .inr ⟨t, rest, hp, ?_⟩
  unfold transact at h
  cases ha : admission params t with
  | error why => rw [ha] at h; cases h
  | ok acc =>
  rw [ha] at h
  change perform params acc (s.withPending rest) = _ at h
  unfold perform at h
  split at h
  · next off => cases h; exact .inl ⟨off, rfl, rfl⟩
  · next off v =>
    split at h
    · next h0 =>
      obtain rfl : off = 0 := h0
      unfold dispatch at h
      split at h
      · next i hd => exact .inr (.inr (.inl ⟨v, i, rfl, hd, h⟩))
      · next e hd => cases h; exact .inr (.inr (.inr (.inl ⟨v, e, rfl, hd, rfl⟩)))
    · next h0 => cases h; exact .inr (.inl ⟨off, v, rfl, h0, rfl⟩)
  · next b a =>
    split at h
    · next v hv => cases h; exact .inr (.inr (.inr (.inr (.inl ⟨b, a, v, rfl, hv, rfl⟩))))
    · cases h
  · next b a v => cases h; exact .inr (.inr (.inr (.inr (.inr ⟨b, a, v, rfl, rfl⟩))))

end Sys2Proof.Machine
end

