-- ==== Sys2Proof/Laws/Operands.lean ====
section
/-! SUPPORT. The operands of the commands: which format codes are supported, when the fetch of a colour pixel succeeds and where it fails,
the fields of TINT and of the dimension registers as plain arithmetic, and the bytes of shaded pixels one after the other. -/

namespace Sys2Proof.Machine

theorem PixFormat.ofCode_of_ge {c : Byte} (h : 4 ≤ c.toNat) : PixFormat.ofCode c = none := by
  unfold ofCode
  split <;> first | omega | rfl

theorem PixFormat.ofCode_of_lt {c : Byte} (h : c.toNat < 4) : ∃ f, PixFormat.ofCode c = some f := by
  unfold ofCode
  split
  · exact ⟨_, rfl⟩
  · exact ⟨_, rfl⟩
  · exact ⟨_, rfl⟩
  · exact ⟨_, rfl⟩
  · exfalso; simp_all; omega

theorem colourLuma_ok {p : Params} {m : Memory} {a : Nat} {b g r : Byte} (hb : m.read a = some b) (hg : m.read (a + 1) = some g)
    (hr : m.read (a + 2) = some r) : colourLuma p m a = .ok (p.lumaFn r g b) := by
  simp [colourLuma, Memory.get_eq_ok.2 hb, Memory.get_eq_ok.2 hg, Memory.get_eq_ok.2 hr]

/-- A colour fetch that fails names one of its three bytes, which is unwritten. -/
theorem colourLuma_error {p : Params} {m : Memory} {a e : Nat} (h : colourLuma p m a = .error e) :
    ∃ k, k < 3 ∧ e = a + k ∧ m.read e = none := by
  unfold colourLuma at h
  split at h
  · next he => cases h; obtain ⟨rfl, h⟩ := Memory.get_eq_error.1 he; exact ⟨0, by omega, rfl, h⟩
  · split at h
    · next he => cases h; obtain ⟨rfl, h⟩ := Memory.get_eq_error.1 he; exact ⟨1, by omega, rfl, h⟩
    · split at h
      · next he => cases h; obtain ⟨rfl, h⟩ := Memory.get_eq_error.1 he; exact ⟨2, by omega, rfl, h⟩
      · cases h

/-- A colour fetch that succeeds found its three bytes written. -/
theorem colourLuma_written {p : Params} {m : Memory} {a : Nat} {v : Byte} (h : colourLuma p m a = .ok v) :
    ∀ k, k < 3 → m.read (a + k) ≠ none := by
  unfold colourLuma at h
  split at h
  · cases h
  · next h0 =>
    split at h
    · cases h
    · next h1 =>
      split at h
      · cases h
      · next h2 =>
        intro k hk
        match k, hk with
        | 0, _ => rw [Nat.add_zero, Memory.get_eq_ok.1 h0]; simp
        | 1, _ => rw [Memory.get_eq_ok.1 h1]; simp
        | 2, _ => rw [Memory.get_eq_ok.1 h2]; simp

theorem tintR_toNat (t : Word) : (tintR t).toNat = t.toNat % 256 := by
  rw [tintR, BitVec.extractLsb'_toNat, Nat.shiftRight_zero]

theorem tintG_toNat (t : Word) : (tintG t).toNat = t.toNat / 2 ^ 8 % 256 := by
  rw [tintG, BitVec.extractLsb'_toNat, Nat.shiftRight_eq_div_pow]

theorem tintB_toNat (t : Word) : (tintB t).toNat = t.toNat / 2 ^ 16 % 256 := by
  rw [tintB, BitVec.extractLsb'_toNat, Nat.shiftRight_eq_div_pow]

theorem tintA_toNat (t : Word) : (tintA t).toNat = t.toNat / 2 ^ 24 := by
  have := t.isLt
  rw [tintA, BitVec.extractLsb'_toNat, Nat.shiftRight_eq_div_pow]
  change t.toNat / 2 ^ 24 % 2 ^ 8 = t.toNat / 2 ^ 24
  omega

theorem tintA_eq_zero {t : Word} : tintA t = 0 ↔ t.toNat / 2 ^ 24 = 0 := by
  rw [← BitVec.toNat_inj, tintA_toNat]
  rfl

/-- A dimension register says 128 by 32 exactly when it is 0x0020_0080 (R30). -/
theorem native_dims_iff (d : Word) : (dimWidth d = 128 ∧ dimHeight d = 32) ↔ d = 0x00200080 := by
  have := d.isLt
  rw [← BitVec.toNat_inj, dimWidth, dimHeight, BitVec.extractLsb'_toNat, BitVec.extractLsb'_toNat, Nat.shiftRight_zero,
    Nat.shiftRight_eq_div_pow]
  change d.toNat % 2 ^ 16 = 128 ∧ d.toNat / 2 ^ 16 % 2 ^ 16 = 32 ↔ d.toNat = 0x00200080
  omega

theorem clamp_byte (v : Nat) : clamp v 0 255 = min v 255 := by simp [clamp]

/-- Blocks of four, one per element: how long they are together. -/
theorem flatMap_four_length {α β : Type} {f : α → List β} (hf : ∀ x, (f x).length = 4) (l : List α) :
    (l.flatMap f).length = 4 * l.length := by
  induction l with
  | nil => rfl
  | cons x l ih => rw [List.flatMap_cons, List.length_append, hf, ih, List.length_cons]; omega

/-- Blocks of four, one per element: element k of block i. -/
theorem flatMap_four_getElem {α β : Type} {f : α → List β} (hf : ∀ x, (f x).length = 4) {l : List α} {i k : Nat} {x : α}
    (h : l[i]? = some x) (hk : k < 4) : (l.flatMap f)[4 * i + k]? = (f x)[k]? := by
  induction l generalizing i with
  | nil => cases h
  | cons y l ih =>
    rw [List.flatMap_cons]
    cases i with
    | zero =>
      cases h
      rw [List.getElem?_append_left (by rw [hf]; omega)]
      congr 1
      omega
    | succ i =>
      rw [List.getElem?_append_right (by rw [hf]; omega), hf, show 4 * (i + 1) + k - 4 = 4 * i + k by omega]
      exact ih h

end Sys2Proof.Machine
end

