-- ==== Sys2Proof/Laws/PerInstr.lean ====
section
/-! SUPPORT. Facts stated once per command: the command word of each names it, is well formed, and lies in the opcode map's range
(30_encoding.md R86). -/

namespace Sys2Proof.Laws

/-- The word of a command is well formed, is at most 3, and decodes to the command (R86). -/
def Encoding.Statement (i : Instr) : Prop :=
  i.wf = true ∧ CmdWord.wf (encode i) = true ∧ (encode i).toNat ≤ 3 ∧ decodeTableWord 32 (encode i).toNat = some i

theorem Encoding.nop : Encoding.Statement .nop := by unfold Encoding.Statement; decide

theorem Encoding.reduce : Encoding.Statement .reduce := by unfold Encoding.Statement; decide

theorem Encoding.tint : Encoding.Statement .tint := by unfold Encoding.Statement; decide

theorem Encoding.encode : Encoding.Statement .encode := by unfold Encoding.Statement; decide

end Sys2Proof.Laws
end

