-- ==== Sys2Proof/Tests/Slice0.lean ====
section
/-! SUPPORT. The model's own tests, with expected results from spec/95_test_vectors.md and the rules' examples (each named in its
comment), and the witnesses that the statements' hypotheses can be met: witness_X is that of Obligations.X, or its comment
says whose it is. -/

namespace Sys2Proof.Tests

open Sys2Proof.Machine

/-- The state a step answered, if it did. -/
def after (o : Host.Outcome State Fault Refusal) : Option State :=
  match o with
  | .next t => some t
  | .fault _ => none
  | .refused _ => none

/-- The fault a step answered, if it did. -/
def faultOf (o : Host.Outcome State Fault Refusal) : Option Fault :=
  match o with
  | .next _ => none
  | .fault f => some f
  | .refused _ => none

/-- The refusal a step answered, if it did. -/
def refusalOf (o : Host.Outcome State Fault Refusal) : Option Refusal :=
  match o with
  | .next _ => none
  | .fault _ => none
  | .refused r => some r

/-- STATUS after an outcome. -/
def statusAfter (o : Host.Outcome State Fault Refusal) : Option Word := (after o).map (fun t => t.status.toWord)

/-- The last reply after an outcome. -/
def replyAfter (o : Host.Outcome State Fault Refusal) : Option Reply := (after o).bind (fun t => t.replies.head?)

/-- The reset state with the host about to make the given transactions. -/
def withHost (ts : List Transaction) : State := { State.reset with pending := ts }

/-! ### Well-formedness and decoding -/

/-- Each check of a command word refuses an ill-formed one: a nonzero RSVD, an OP of 4 or more (R88). -/
theorem test_wf_refuses : CmdWord.reservedZero 0x00000010 = false ∧ CmdWord.opNamed 0x00000004 = false ∧
    CmdWord.wf 0x80000001 = false ∧ CmdWord.wf 0x00000004 = false ∧ CmdWord.wf 0x00000003 = true := by decide

/-- No command has an operand, so every command is well formed (R87). -/
theorem test_wf_instr : Instr.nop.wf = true ∧ Instr.reduce.wf = true ∧ Instr.tint.wf = true ∧ Instr.encode.wf = true := by decide

/-- NOP: OP = 0000 under RSVD = 0 (R86). -/
theorem test_decode_nop : decode 0b00000000000000000000000000000000 = .ok .nop := by decide

/-- REDUCE: OP = 0001 (R86). -/
theorem test_decode_reduce : decode 0b00000000000000000000000000000001 = .ok .reduce := by decide

/-- TINT: OP = 0010 (R86). -/
theorem test_decode_tint : decode 0b00000000000000000000000000000010 = .ok .tint := by decide

/-- ENCODE: OP = 0011 (R86). -/
theorem test_decode_encode : decode 0b00000000000000000000000000000011 = .ok .encode := by decide

/-- Illegal words (R88; vectors X2, X3, X4, X8). -/
theorem test_decode_illegal : decode 0x00000004 = .error .opcode ∧ decode 0x0000000F = .error .opcode ∧
    decode 0x00000010 = .error .reservedBits ∧ decode 0xFFFFFFFF = .error .reservedBits ∧
    decode 0x80000001 = .error .reservedBits := by decide

/-- The table's reading of its four rows, and of a value of more than 32 bits. -/
theorem test_decodeTableWord : decodeTableWord 32 0 = some .nop ∧ decodeTableWord 32 1 = some .reduce ∧
    decodeTableWord 32 2 = some .tint ∧ decodeTableWord 32 3 = some .encode ∧ decodeTableWord 32 7 = none ∧
    decodeTableWord 40 0x100000000 = none := by decide

/-! ### Pure functions, at the spec's default parameters -/

/-- Vectors L1 to L13. -/
theorem test_luma_vectors :
    defaultLuma 0 0 0 = 0 ∧ defaultLuma 255 255 255 = 255 ∧ defaultLuma 255 0 0 = 77 ∧ defaultLuma 0 255 0 = 149 ∧
    defaultLuma 0 0 255 = 29 ∧ defaultLuma 100 100 100 = 100 ∧ defaultLuma 128 64 32 = 80 ∧ defaultLuma 1 1 1 = 1 ∧
    defaultLuma 255 255 0 = 226 ∧ defaultLuma 0 255 255 = 178 ∧ defaultLuma 255 0 255 = 106 ∧ defaultLuma 0 0 1 = 0 ∧
    defaultLuma 2 2 1 = 2 := by decide

/-- The Shade table of section 2.4. -/
theorem test_shade_vectors :
    shade .default 200 128 = 100 ∧ shade .default 255 0 = 0 ∧ shade .default 1 254 = 0 ∧ shade .default 255 128 = 128 ∧
    shade .default 51 128 = 25 ∧ shade .default 0 255 = 0 ∧ shade .default 254 1 = 0 ∧ shade .default 100 200 = 78 ∧
    shade .default 255 255 = 255 ∧ shade .default 128 255 = 128 ∧ shade .default 255 1 = 1 ∧ shade .default 128 128 = 64 := by decide

/-- The four plane bytes of a group. -/
def planeBytes (s : List Byte) : List Byte := [packGroup s 4, packGroup s 5, packGroup s 6, packGroup s 7]

/-- Vectors G3 to G11. -/
theorem test_packGroup_vectors :
    planeBytes [0x10, 0x10, 0x10, 0x10, 0x10, 0x10, 0x10, 0x10] = [0xFF, 0, 0, 0] ∧
    planeBytes [0x0F, 0x0F, 0x0F, 0x0F, 0x0F, 0x0F, 0x0F, 0x0F] = [0, 0, 0, 0] ∧
    planeBytes [0xF0, 0, 0, 0, 0, 0, 0, 0] = [0x01, 0x01, 0x01, 0x01] ∧
    planeBytes [0, 0, 0, 0, 0, 0, 0, 0xF0] = [0x80, 0x80, 0x80, 0x80] ∧
    planeBytes [0x80, 0x40, 0x20, 0x10, 0x08, 0x04, 0x02, 0x01] = [0x08, 0x04, 0x02, 0x01] ∧
    planeBytes [0x00, 0x10, 0x20, 0x30, 0x40, 0x50, 0x60, 0x70] = [0xAA, 0xCC, 0xF0, 0x00] ∧
    planeBytes [0x80, 0x90, 0xA0, 0xB0, 0xC0, 0xD0, 0xE0, 0xF0] = [0xAA, 0xCC, 0xF0, 0xFF] ∧
    planeBytes [0x9F, 0, 0, 0, 0, 0, 0, 0] = [0x01, 0x00, 0x00, 0x01] ∧
    planeBytes [0x70, 0x60, 0x50, 0x40, 0x30, 0x20, 0x10, 0x00] = [0x55, 0x33, 0x0F, 0x00] := by decide

/-- An image of zeros but for one pixel. -/
def onePixel (at_ : Nat) (v : Byte) : List Byte := (List.replicate at_ 0) ++ v :: List.replicate (4095 - at_) 0

/-- Vector E9: pixel (10, 1) = 0xA0 gives TXBUF[533] = TXBUF[1557] = 0x04 and 0 in the other planes of its group. -/
theorem test_payload_E9 :
    (payload (onePixel 138 0xA0))[533 - 4]? = some 0x04 ∧ (payload (onePixel 138 0xA0))[1557 - 4]? = some 0x04 ∧
    (payload (onePixel 138 0xA0))[21 - 4]? = some 0x00 := by decide +kernel

/-! ### The commands -/

/-- Vector X1: NOP clears ERR and keeps GRAY_VALID. -/
theorem test_nop_X1 :
    statusAfter (exec .nop { State.reset with status := { err := 1, grayValid := true, toutValid := false, frameValid := false } }) =
      some 0x100 := by decide

/-- A one-pixel BGRA32 image (vector RD3): blue 0x20, green 0x40, red 0x80, the alpha byte unwritten. -/
def rd3 : State := { State.reset with srcFmt := 0x02, srcDim := 0x00010001, src := [(0, 0x20), (1, 0x40), (2, 0x80)] }

/-- Vector RD3: GRAY[0] = 0x50 and STATUS = 0x100, though the alpha byte is unwritten. -/
theorem test_reduce_RD3 :
    ((after (reduceWith .default rd3)).map fun t => (t.gray, t.grayDim, t.status.toWord)) = some ([(0, 0x50)], 0x00010001, 0x100) := by
  decide

/-- A 2 by 1 GRAY8 image whose second byte is unwritten (vector RD10). -/
def rd10 : State := { State.reset with srcDim := 0x00010002, src := [(0, 0x12)] }

/-- Vector RD10: the model fault UnwrittenRead(SRC, 1). -/
theorem test_reduce_RD10 : faultOf (exec .reduce rd10) = some (.unwrittenRead .src 1) := by decide

/-- GRAY = [200, 51], 2 by 1, as the vectors of section 2.4 start, with a TINT value. -/
def grayPair (tint : Word) : State :=
  { State.reset with gray := [(0, 200), (1, 51)], grayDim := 0x00010002, tint := tint,
                     status := { err := 0, grayValid := true, toutValid := false, frameValid := false } }

/-- Vector T1: A = 0 passes through. -/
theorem test_tint_T1 :
    ((after (exec .tint (grayPair 0x00FFFFFF))).map fun t => (t.tout, t.toutFmt, t.status.toWord)) =
      some ([(0, 0xC8), (1, 0x33)], 0x00, 0x300) := by decide

/-- Vector T4: R 255, G 128, B 0. -/
theorem test_tint_T4 :
    ((after (tintWith .default (grayPair 0x010080FF))).map fun t => (t.tout.map (·.2), t.toutFmt, t.status.toWord)) =
      some ([0x00, 0x64, 0xC8, 0xFF, 0x00, 0x19, 0x33, 0xFF], 0x03, 0x300) := by decide

/-- Vector X7: 64 by 64 has 4096 pixels but the wrong shape. -/
theorem test_encode_X7 :
    statusAfter (exec .encode { grayPair 0 with grayDim := 0x00400040 }) = some 0x101 := by decide

/-- Vector X6: without a reduced image ENCODE raises InputNotValid. -/
theorem test_encode_X6 : statusAfter (exec .encode State.reset) = some 0x003 := by decide

/-! ### Host accesses -/

/-- Vectors X2, X3, X8: illegal words through a CMD write after reset. -/
theorem test_illegal_words :
    statusAfter (step (withHost [.wr 0x00 0x00000004])) = some 0x005 ∧ statusAfter (step (withHost [.wr 0x00 0x00000010])) = some 0x005 ∧
    statusAfter (step (withHost [.wr 0x00 0x80000001])) = some 0x005 := by decide

/-- Every command runs as the first one after reset: NOP and REDUCE (of a 0 by 0 image) succeed, TINT and ENCODE lack their input. -/
theorem test_placed_commands :
    statusAfter (step (State.reset.withFetchWord 32 0)) = some 0x000 ∧ statusAfter (step (State.reset.withFetchWord 32 1)) = some 0x100 ∧
    statusAfter (step (State.reset.withFetchWord 32 2)) = some 0x003 ∧
    statusAfter (step (State.reset.withFetchWord 32 3)) = some 0x003 := by decide

/-- Vector A3: SRC_FMT discards its reserved bits. -/
theorem test_srcFmt_A3 : ((after (step (withHost [.wr 0x08 0x12345678]))).map fun t => t.readReg params 0x08) = some 0x00000078 := by
  decide

/-- Vectors A1, A4, A5: CMD reads 0, the constants read as they are, an unmapped offset reads 0. -/
theorem test_register_reads :
    replyAfter (step (withHost [.rd 0x00])) = some (.word 0) ∧ replyAfter (step (withHost [.rd 0x20])) = some (.word 0x00200080) ∧
    replyAfter (step (withHost [.rd 0x24])) = some (.word 0x00000804) ∧ replyAfter (step (withHost [.rd 0x2C])) = some (.word 0) ∧
    State.reset.readReg .default 0x28 = 0x00001000 := by decide

/-- Vectors A7, A8: a write of TXBUF is ignored, the header reads 0x81, the payload is unwritten after reset. -/
theorem test_txbuf_A7_A8 :
    ((after (step (withHost [.sb .txbuf 0 0x00]))).bind fun t => t.readBuf .txbuf 0) = some 0x81 ∧
    faultOf (step (withHost [.lb .txbuf 4])) = some (.unwrittenRead .txbuf 4) := by decide

/-- Vectors A6, A9 and each other check of admission: the transactions that have no step. -/
theorem test_not_admitted :
    refusalOf (step (withHost [.rd 0x02])) = some (.notAdmitted .registerAlign) ∧
    refusalOf (step (withHost [.rd 0x100])) = some (.notAdmitted .registerRange) ∧
    refusalOf (step (withHost [{ space := .reg, addr := 0x04, width := 16, data := none }])) = some (.notAdmitted .registerWidth) ∧
    refusalOf (step (withHost [.lb .txbuf 2052])) = some (.notAdmitted .bufferRange) ∧
    refusalOf (step (withHost [{ space := .buf .src, addr := 0, width := 32, data := none }])) = some (.notAdmitted .bufferWidth) ∧
    refusalOf (step (withHost [{ space := .reg, addr := 0x08, width := 32, data := some (2 ^ 32) }])) =
      some (.notAdmitted .dataWidth) := by decide

/-! ### Witnesses: states and operands that meet the hypotheses of the statements, named after them -/

/-- A 128 by 32 image of 0xFF in both SRC and GRAY, as after a REDUCE of it (program P1 after step 4). -/
def frame : State :=
  { State.reset with src := Memory.cellsFrom 0 (List.replicate 4096 0xFF), srcDim := 0x00200080,
                     gray := Memory.cellsFrom 0 (List.replicate 4096 0xFF), grayDim := 0x00200080,
                     status := { err := 0, grayValid := true, toutValid := false, frameValid := false } }

theorem read_frame {i : Nat} (h : i < 4096) : (Memory.cellsFrom 0 (List.replicate 4096 (0xFF : Byte))).read i = some 0xFF := by
  rw [Memory.read_cellsFrom, if_pos (Nat.zero_le i), List.getElem?_replicate, if_pos (by omega)]

/-- 16384 bytes, 4·4096, fit SRC and TOUT of every machine of the spec. -/
theorem least_size : 16383 < 4 * params.maxPixels := by
  have := params.maxPixels_ge
  simp only [Config.minPixels] at this
  omega

/-- Some next state, with what it takes to get it. -/
theorem next_of_after {o : Host.Outcome State Fault Refusal} {t : State} (h : after o = some t) : o = .next t := by
  cases o <;> cases h
  rfl

theorem witness_StatusWordLayout :
    (Status.toWord { err := 5, grayValid := true, toutValid := false, frameValid := true }) = 0x505 ∧ (0 < 32 ∧ 3 < 32 ∧ 4 < 32 ∧ 31 < 32) := by
  decide

/-- For RegReadReturnsTheMap and RegWriteEffects: every offset of the map, its gaps and its last word. -/
theorem witness_RegRead_RegWrite :
    ∀ off ∈ [0x00, 0x04, 0x08, 0x0C, 0x10, 0x14, 0x18, 0x1C, 0x20, 0x24, 0x28, 0x2C, 0xFC],
      (withHost [.rd off]).faultRecord = none ∧ (withHost [.rd off]).pending = .rd off :: [] ∧
      (withHost [.wr off 0x12345678]).pending = .wr off 0x12345678 :: [] ∧ off % 4 = 0 ∧ off ≤ 0xFC := by decide

theorem witness_CmdWriteRunsDecodedCommand :
    ∀ i : Instr, (withHost [.wr 0x00 (encode i)]).faultRecord = none ∧
      (withHost [.wr 0x00 (encode i)]).pending = .wr 0x00 (encode i) :: [] ∧ decode (encode i) = .ok i := by
  intro i
  cases i <;> decide

/-- A first and a last unnamed OP, a first and a last reserved bit. -/
theorem witness_IllegalWordSetsErrOnly :
    (∀ v, (withHost [.wr 0x00 v]).faultRecord = none ∧ (withHost [.wr 0x00 v]).pending = .wr 0x00 v :: []) ∧
    (4 ≤ ((0x00000004 : Word).extractLsb' 0 4).toNat ∧ 4 ≤ ((0x0000000F : Word).extractLsb' 0 4).toNat) ∧
    ((0x00000010 : Word).extractLsb' 4 28 ≠ 0 ∧ (0x80000001 : Word).extractLsb' 4 28 ≠ 0) ∧
    ((0x00000003 : Word).extractLsb' 4 28 = 0 ∧ ((0x00000003 : Word).extractLsb' 0 4).toNat < 4) :=
  ⟨fun _ => ⟨rfl, rfl⟩, by decide, by decide, by decide⟩

/-- For BufReadReturnsByteOrFaults and BufWriteStoresOnlyInSrc: the first and a last address of each buffer, a written byte and an
unwritten one. -/
theorem witness_BufRead_BufWrite :
    (0 < 4 * params.maxPixels ∧ 16383 < 4 * params.maxPixels ∧ 0 < params.maxPixels ∧ 4095 < params.maxPixels ∧ 0 < 2052 ∧ 2051 < 2052) ∧
    (∀ b ∈ [Buffer.src, .gray, .tout, .txbuf], ∀ a ∈ [0, 4, 2051], (withHost [.lb b a]).pending = .lb b a :: [] ∧
      (withHost [.lb b a]).faultRecord = none ∧ (withHost [.sb b a 0x55]).pending = .sb b a 0x55 :: []) ∧
    (withHost [.lb .txbuf 3]).readBuf .txbuf 3 = some 0x00 ∧ (withHost [.lb .txbuf 4]).readBuf .txbuf 4 = none := by
  have := least_size
  refine ⟨by omega, by decide, by decide, by decide⟩

/-- One transaction for each way not to be admitted, at the edge of each range. -/
theorem witness_UnadmittedAccessHasNoStep :
    (∀ t : Transaction, (withHost [t]).faultRecord = none ∧ (withHost [t]).pending = t :: []) ∧
    (Transaction.rd 0x02).addr % 4 ≠ 0 ∧ 0xFC < (Transaction.rd 0x100).addr ∧
    ({ space := .reg, addr := 0, width := 8, data := none } : Transaction).width ≠ 32 ∧
    ({ space := .buf .src, addr := 0, width := 16, data := none } : Transaction).width ≠ 8 ∧
    4 * params.maxPixels ≤ (Transaction.lb .src (4 * params.maxPixels)).addr ∧
    params.maxPixels ≤ (Transaction.lb .gray params.maxPixels).addr ∧
    4 * params.maxPixels ≤ (Transaction.lb .tout (4 * params.maxPixels)).addr ∧ 2052 ≤ (Transaction.lb .txbuf 2052).addr :=
  ⟨fun _ => ⟨rfl, rfl⟩, by decide, by decide, by decide, by decide, Nat.le_refl _, Nat.le_refl _, Nat.le_refl _, by decide⟩

theorem witness_AdmittedAccessHasStep :
    (withHost [.wr 0xFC 0xFFFFFFFF]).pending = .wr 0xFC 0xFFFFFFFF :: [] ∧ (Transaction.wr 0xFC 0xFFFFFFFF).width = 32 ∧
    (Transaction.wr 0xFC 0xFFFFFFFF).addr % 4 = 0 ∧ (∀ d, (Transaction.wr 0xFC 0xFFFFFFFF).data = some d → d < 2 ^ 32) ∧
    (∀ d, (Transaction.sb .src 16383 0xFF).data = some d → d < 2 ^ 8) ∧ (Transaction.sb .src 16383 0xFF).addr < 4 * params.maxPixels ∧
    (Transaction.lb .txbuf 2051).addr < 2052 := by
  refine ⟨rfl, rfl, rfl, ?_, ?_, least_size, by decide⟩ <;> intro d h <;> cases h <;> decide

theorem witness_SrcReadReturnsLatestWrite :
    (withHost [.sb .src 0 0x12, .lb .src 0]).pending = .sb .src 0 0x12 :: .lb .src 0 :: [] ∧
    ({ rd10 with pending := [.sb .src 1 0x34, .lb .src 0] }).readBuf .src 0 = some 0x12 ∧ (0 : Nat) ≠ 1 ∧
    0 < 4 * params.maxPixels ∧ 1 < 4 * params.maxPixels := by
  have := least_size
  exact ⟨rfl, by decide, by decide, by omega, by omega⟩

theorem witness_ReadsAreIdempotent :
    ∃ t u, (withHost [.rd 0x24, .rd 0x24]).pending = .rd 0x24 :: .rd 0x24 :: [] ∧ (Transaction.rd 0x24).data = none ∧
      step (withHost [.rd 0x24, .rd 0x24]) = .next t ∧ step t = .next u := ⟨_, _, rfl, rfl, rfl, rfl⟩

theorem witness_ModelFaultIsRecordedForGood :
    step (withHost [.lb .txbuf 4]) = .fault (.unwrittenRead .txbuf 4) ∧
    ((withHost []).record (.unwrittenRead .txbuf 4)).faultRecord = some (.unwrittenRead .txbuf 4) := ⟨rfl, rfl⟩

theorem witness_WaitsWithoutTransaction : State.reset.faultRecord = none ∧ State.reset.pending = [] := ⟨rfl, rfl⟩

theorem witness_PlacedCommandRunsNext :
    State.reset.faultRecord = none ∧ (State.reset.record (.unwrittenRead .src 1)).faultRecord = some (.unwrittenRead .src 1) := ⟨rfl, rfl⟩

theorem witness_DecodeEncodeAgree : Instr.tint.wf = true ∧ decode 0x00000002 = .ok .tint := by decide

theorem witness_NopClearsErrOnly : (0x00000010 : Word).extractLsb' 0 4 = 0 ∧ (0x00000010 : Word).extractLsb' 4 28 ≠ 0 := by decide

/-- Vector RD1: a 2 by 1 GRAY8 image. -/
def rd1 : State := { State.reset with srcDim := 0x00010002, src := [(0, 0x12), (1, 0xF0)] }

theorem two_pixels_fit : 2 ≤ params.maxPixels := by
  have := least_size
  omega

theorem witness_ReduceCopiesGrayImage :
    rd1.srcFmt = 0x00 ∧ dimWidth rd1.srcDim * dimHeight rd1.srcDim ≤ params.maxPixels ∧
    ∀ i, i < dimWidth rd1.srcDim * dimHeight rd1.srcDim → (rd1.readBuf .src i).isSome = true :=
  ⟨rfl, two_pixels_fit, by decide⟩

/-- Vectors RD2 to RD4: one pixel, blue 0x20, green 0x40, red 0x80, in each colour format; the fourth byte is unwritten. -/
theorem witness_ReduceConvertsColourImage :
    ∀ f ∈ [((0x01 : Byte), 3), (0x02, 4), (0x03, 4)],
      (f.1 = 0x01 ∧ f.2 = 3 ∨ f.1 = 0x02 ∧ f.2 = 4 ∨ f.1 = 0x03 ∧ f.2 = 4) ∧
      dimWidth rd3.srcDim * dimHeight rd3.srcDim ≤ params.maxPixels ∧
      ∀ i, i < dimWidth rd3.srcDim * dimHeight rd3.srcDim → { rd3 with srcFmt := f.1 }.readBuf .src (f.2 * i) = some 0x20 ∧
        { rd3 with srcFmt := f.1 }.readBuf .src (f.2 * i + 1) = some 0x40 ∧
        { rd3 with srcFmt := f.1 }.readBuf .src (f.2 * i + 2) = some 0x80 := by
  have h : dimWidth rd3.srcDim * dimHeight rd3.srcDim ≤ params.maxPixels := Nat.le_trans (by decide) two_pixels_fit
  intro f hf
  refine ⟨?_, h, ?_⟩
  · revert f; decide
  · revert f; decide

theorem witness_GrayColoursKeepTheirValue :
    ∀ i k, i < dimWidth rd3.srcDim * dimHeight rd3.srcDim → k < 3 →
      { rd3 with srcFmt := 0x01, src := [(0, 0x77), (1, 0x77), (2, 0x77)] }.readBuf .src (3 * i + k) = some 0x77 := by
  have h : dimWidth rd3.srcDim * dimHeight rd3.srcDim = 1 := by decide
  intro i k hi hk
  obtain rfl : i = 0 := by omega
  match k, hk with
  | 0, _ | 1, _ | 2, _ => rfl

theorem witness_ReduceRefusesFormat :
    0x04 ≤ ({ State.reset with srcFmt := 0x04 } : State).srcFmt.toNat ∧ 0x04 ≤ ({ State.reset with srcFmt := 0xFF } : State).srcFmt.toNat := by
  decide

theorem witness_ReduceRefusesOversizeImage :
    ({ State.reset with srcFmt := 0x03, srcDim := 0xFFFFFFFF } : State).srcFmt.toNat < 0x04 ∧
    params.maxPixels < dimWidth 0xFFFFFFFF * dimHeight 0xFFFFFFFF := by
  have h := params.maxPixels_le
  have h' : Config.mostPixels < dimWidth 0xFFFFFFFF * dimHeight 0xFFFFFFFF := by decide
  exact ⟨by decide, Nat.lt_of_le_of_lt h h'⟩

/-- Vector RD9 and its mirror: no columns, no rows. -/
theorem witness_ReduceOfEmptyImage :
    State.reset.srcFmt.toNat < 0x04 ∧ dimHeight 0x00000080 = 0 ∧ dimWidth 0x00200000 = 0 := by decide

theorem witness_ReduceFaultsExactlyOnUnwrittenByte :
    rd10.srcFmt.toNat < 0x04 ∧ dimWidth rd10.srcDim * dimHeight rd10.srcDim ≤ params.maxPixels ∧
    (rd10.reduceReads 1 ∧ rd10.readBuf .src 1 = none) ∧ exec .reduce rd10 = .fault (.unwrittenRead .src 1) :=
  ⟨by decide, two_pixels_fit, ⟨⟨1, 0, by decide, .inl ⟨rfl, rfl⟩⟩, by decide⟩, rfl⟩

theorem witness_ReduceDependsOnlyOnBytesRead :
    ∃ s', rd1.srcFmt = { rd1 with tint := 0xFFFFFFFF, gray := [(0, 0x99)] }.srcFmt ∧
      (∀ a, rd1.reduceReads a → rd1.readBuf .src a = { rd1 with tint := 0xFFFFFFFF, gray := [(0, 0x99)] }.readBuf .src a) ∧
      exec .reduce rd1 = .next s' ∧ s'.status.err = 0 := ⟨_, rfl, fun _ _ => rfl, rfl, rfl⟩

theorem witness_TintPassesThrough :
    (grayPair 0x00FFFFFF).status.grayValid = true ∧ (grayPair 0x00FFFFFF).tint.toNat / 2 ^ 24 = 0 ∧
    ∀ i, i < dimWidth (grayPair 0x00FFFFFF).grayDim * dimHeight (grayPair 0x00FFFFFF).grayDim →
      ((grayPair 0x00FFFFFF).readBuf .gray i).isSome = true := by decide

/-- For TintShadesEachPixel and TintFullAndZero: full tint, zero tint, and a mixed one, with the least A that counts and a greater one. -/
theorem witness_TintShades :
    (∀ w i, i < dimWidth (grayPair w).grayDim * dimHeight (grayPair w).grayDim →
      (grayPair w).status.grayValid = true ∧ (grayPair w).readBuf .gray i = some (if i = 0 then 200 else 51)) ∧
    (0 < (0x01FFFFFF : Word).toNat / 2 ^ 24 ∧ (0x01FFFFFF : Word).toNat % 2 ^ 24 = 0xFFFFFF) ∧
    (0 < (0xFF000000 : Word).toNat / 2 ^ 24 ∧ (0xFF000000 : Word).toNat % 2 ^ 24 = 0) ∧ 0 < (0x800080FF : Word).toNat / 2 ^ 24 := by
  refine ⟨fun w i hi => ⟨rfl, ?_⟩, by decide, by decide, by decide⟩
  have hN : dimWidth (grayPair w).grayDim * dimHeight (grayPair w).grayDim = 2 := (by decide : dimWidth (grayPair 0).grayDim * dimHeight (grayPair 0).grayDim = 2)
  rw [hN] at hi
  match i, hi with
  | 0, _ | 1, _ => rfl

theorem witness_TintPresenceFlagOnly :
    0 < (0x010080FF : Word).toNat / 2 ^ 24 ∧ 0 < (0x800080FF : Word).toNat / 2 ^ 24 ∧
    (0x010080FF : Word).toNat % 2 ^ 24 = (0x800080FF : Word).toNat % 2 ^ 24 ∧ (after (exec .tint (grayPair 0x010080FF))).isSome = true := by
  decide

theorem witness_TintNeedsReducedImage : State.reset.status.grayValid = false := rfl

theorem witness_PackGroupClosedForm :
    ([0x80, 0x40, 0x20, 0x10, 0x08, 0x04, 0x02, 0x01] : List Byte).length = 8 ∧
    ([0x1F, 0xA0] : List Byte).map (fun v => v.toNat / 16) = [0x10, 0xAF].map (fun v : Byte => v.toNat / 16) := by decide

theorem frame_gray_written : frame.gray.filled 4096 := fun _ hi => Option.isSome_iff_exists.2 ⟨0xFF, read_frame hi⟩

/-- For EncodeClosedForm, EncodeLevelsRecovered and EncodeReadsGrayOnly: their hypotheses, and a state ENCODE completes in. -/
theorem witness_EncodeCompletes :
    frame.status.grayValid = true ∧ frame.grayDim = 0x00200080 ∧ (∀ i, i < 4096 → frame.readBuf .gray i = some 0xFF) ∧
    ∃ t, exec .encode frame = .next t ∧ t.status.frameValid = true := by
  refine ⟨rfl, rfl, fun i hi => read_frame hi, ?_⟩
  obtain ⟨vs, hc, -⟩ := collect_get_ok frame_gray_written
  rcases execEncode_cases frame with ⟨h, -⟩ | ⟨-, h, -⟩ | ⟨-, -, ⟨luma, -, hr⟩ | ⟨a, hc', -⟩⟩
  · cases h
  · exact absurd (by decide) h
  · exact ⟨frame.encoded luma, hr, rfl⟩
  · rw [hc] at hc'; cases hc'

theorem witness_EncodeRefusesMissingOrMissized :
    State.reset.status.grayValid = false ∧ (grayPair 0).status.grayValid = true ∧ (grayPair 0).grayDim ≠ 0x00200080 := by decide

/-- An image of 0xF0 differs from `frame`'s in bits 3 to 0 only. -/
theorem witness_EncodeIgnoresLowNibble :
    ∀ i, i < 4096 → ∃ v w, frame.readBuf .gray i = some v ∧
      { frame with gray := Memory.cellsFrom 0 (List.replicate 4096 0xF0) }.readBuf .gray i = some w ∧ v.toNat / 16 = w.toNat / 16 := by
  intro i hi
  refine ⟨0xFF, 0xF0, read_frame hi, ?_, by decide⟩
  change Memory.read _ i = _
  rw [Memory.read_cellsFrom, if_pos (Nat.zero_le i), List.getElem?_replicate, if_pos (by omega)]

theorem witness_PipelineFromSourceToFrame :
    frame.srcFmt = 0x00 ∧ frame.srcDim = 0x00200080 ∧ ∀ i, i < 4096 → frame.readBuf .src i = some 0xFF :=
  ⟨rfl, rfl, fun _ hi => read_frame hi⟩

/-- For CommandsTouchOnlyTheirOutputs, CommandsAreIdempotent and ErrorsChangeErrOnly: every command answers a next state somewhere, and
three of them one that raises an error. -/
theorem witness_commandsAnswer :
    (∀ i : Instr, (after (exec i (grayPair 0))).isSome = true) ∧
    statusAfter (exec .reduce { State.reset with srcFmt := 0x04 }) = some 0x002 ∧
    statusAfter (exec .tint State.reset) = some 0x003 ∧ statusAfter (exec .encode (grayPair 0)) = some 0x101 := by
  refine ⟨fun i => ?_, by decide, by decide, by decide⟩
  cases i <;> decide

/-- Each cause alone, at the first value that has it (vectors RD5, RD6, X2, X5 to X7); the capacity's is in
`witness_ReduceRefusesOversizeImage`. -/
theorem witness_ErrorsAndTheirCodes :
    4 ≤ (0x00000004 : Word).toNat ∧ 4 ≤ (0xFFFFFFFF : Word).toNat ∧ 0x04 ≤ (0x04 : Byte).toNat ∧ 0x04 ≤ (0xFF : Byte).toNat ∧
    (0x03 : Byte).toNat < 0x04 ∧ State.reset.status.grayValid = false ∧ (grayPair 0).status.grayValid = true ∧
    (0x00400040 : Word) ≠ 0x00200080 ∧ (0x00200040 : Word) ≠ 0x00200080 ∧ (0x001F0080 : Word) ≠ 0x00200080 :=
  ⟨by decide, by decide, by decide, by decide, by decide, rfl, rfl, by decide, by decide, by decide⟩

theorem witness_ValidBitsNeverCleared :
    (after (step { frame with pending := [.rd 0x04] })).isSome = true ∧ frame.status.grayValid = true ∧
    statusAfter (step { grayPair 0 with status := { err := 0, grayValid := true, toutValid := true, frameValid := true }, pending := [.wr 0x00 2] }) =
      some 0x700 := ⟨rfl, rfl, by decide⟩

/-- A VALID bit set by its command: REDUCE and TINT here, ENCODE in `witness_EncodeCompletes`. -/
theorem witness_ValidBitsSetByTheirCommand :
    statusAfter (step { rd1 with pending := [.wr 0x00 1] }) = some 0x100 ∧
    statusAfter (step { grayPair 0 with pending := [.wr 0x00 2] }) = some 0x300 := by decide

theorem witness_OnlyCommandsWriteOutputs :
    (withHost [.wr 0x0C 0x00200080]).pending = .wr 0x0C 0x00200080 :: [] ∧ (∀ v, Transaction.wr 0x0C 0x00200080 ≠ .wr 0x00 v) ∧
    (after (step (withHost [.wr 0x0C 0x00200080]))).isSome = true := by
  refine ⟨rfl, fun v h => ?_, rfl⟩
  have := congrArg Transaction.addr h
  cases this

/-- The invariant holds of a state that is not the reset state. -/
theorem frame_inv : frame.Inv := by
  have hm := params.maxPixels_ge
  simp only [Config.minPixels] at hm
  have hN : pixelCount frame.grayDim = 4096 := by decide
  have hw : (Memory.cellsFrom 0 (List.replicate 4096 (0xFF : Byte))).wf := Memory.wf_cellsFrom _ _
  refine ⟨⟨hw, hw, .nil, .nil⟩, ⟨?_, ?_, ?_, ?_⟩, (by decide : (0 : BitVec 4) ≤ 5), ⟨nofun, ?_, ?_⟩,
    ⟨fun _ => ⟨rfl, rfl, rfl⟩, .inl ⟨rfl, fun a ha => absurd ha (Nat.not_lt_zero a)⟩, Params.fits_zero _⟩, ⟨fun _ => rfl, nofun⟩, ⟨nofun, nofun⟩⟩
  · intro c hc
    have := Memory.mem_cellsFrom hc
    rw [List.length_replicate] at this
    exact ⟨Nat.zero_le _, (inRange_src _ _).2 (by omega)⟩
  · intro c hc
    have := Memory.mem_cellsFrom hc
    rw [List.length_replicate] at this
    exact ⟨Nat.zero_le _, (inRange_gray _ _).2 (by omega)⟩
  · nofun
  · nofun
  · intro a ha
    rw [hN] at ha
    exact Option.isSome_iff_exists.2 ⟨0xFF, read_frame ha⟩
  · rw [hN, Params.fits_iff]; exact hm

/-- For StepKeepsInvariant, TintAndEncodeCannotFault, OnlyReduceAndReadsFault and PayloadWrittenExactlyWhenFrameValid: a state with it whose next step answers a state, and one whose next step is each fault. -/
theorem witness_Inv :
    frame.Inv ∧ (after (step frame)).isSome = true ∧ 4 ≤ 4 ∧ 2051 < 2052 ∧
    faultOf (step (withHost [.lb .txbuf 4])) = some (.unwrittenRead .txbuf 4) ∧
    faultOf (step { rd10 with pending := [.wr 0x00 1] }) = some (.unwrittenRead .src 1) :=
  ⟨frame_inv, rfl, by decide, by decide, rfl, by decide⟩

end Sys2Proof.Tests
end

/-! PROOFS. The statements of 00_scope.md: the range of MAX_PIXELS (R8), errors as codes that change ERR alone (R12), and the record of a
model fault (R13). -/

namespace Sys2Proof.Machine

/-! ### MAX_PIXELS (R8, R37) -/

theorem State.readReg_maxPix (p : Params) (s : State) : s.readReg p 0x28 = BitVec.ofNat 32 p.maxPixels := rfl

theorem State.readReg_maxPix_toNat (p : Params) (s : State) : (s.readReg p 0x28).toNat = p.maxPixels := by
  have hle : p.maxPixels ≤ 2 ^ 30 := p.maxPixels_le
  rw [readReg_maxPix, BitVec.toNat_ofNat, Nat.mod_eq_of_lt (by omega)]

/-- Settles O55, from the bounds every lawful parameter set carries; 2^30 fits a 32-bit register. -/
theorem maxPixInRange : Obligations.MaxPixInRange :=
  ⟨params.maxPixels_ge, params.maxPixels_le, State.readReg_maxPix_toNat params⟩

/-! ### The model-fault record (R13) -/

theorem advance_of_fault {s : State} {f : Fault} (h : step s = .fault f) : advance s = s.record f := by
  rw [advance, h]

theorem step_of_recorded {s : State} {f : Fault} (h : s.faultRecord = some f) : step s = .fault f := by
  rw [step, stepOnce, h]

theorem State.record_not_successful (s : State) (f : Fault) : (s.record f).successful = false := rfl

theorem State.record_of_recorded {s : State} {f : Fault} (h : s.faultRecord = some f) : s.record f = s := by
  rw [record, ← h]

/-- Settles O14: a faulting step advances to the state with the fault recorded, and a recorded fault is what the step answers. -/
theorem modelFaultIsRecordedForGood : Obligations.ModelFaultIsRecordedForGood := by
  refine ⟨fun s f hstep => ?_, fun s f hrec => ?_⟩
  · rw [advance_of_fault hstep]
    exact ⟨s.record_faultRecord f, s.record_not_successful f⟩
  · have hstep := step_of_recorded hrec
    exact ⟨hstep, by rw [advance_of_fault hstep, State.record_of_recorded hrec]⟩

/-! ### What an error changes (R12, R170) -/

theorem State.raise_eq (s : State) (e : ErrCode) : s.raise e = { s with status := { s.status with err := e.code } } := rfl

/-- A command that leaves a nonzero ERR has raised an error: its other outcomes all clear ERR. -/
theorem exec_error_is_raise {i : Instr} {s t : State} (h : exec i s = .next t) (he : t.status.err ≠ 0) :
    ∃ e, t = s.raise e := by
  rcases exec_next h with hraise | ⟨-, rfl⟩ | ⟨-, luma, -, -, rfl⟩ | ⟨-, -, luma, -, ⟨-, rfl⟩ | ⟨-, rfl⟩⟩ | ⟨-, -, luma, -, rfl⟩
  · exact hraise
  all_goals exact absurd rfl he

/-- Settles O42: a nonzero ERR comes from `State.raise`, which writes ERR alone. -/
theorem errorsChangeErrOnly : Obligations.ErrorsChangeErrOnly := by
  intro i s t h he
  obtain ⟨e, rfl⟩ := exec_error_is_raise h he
  exact s.raise_eq e

/-! ### Which word of CMD runs what (R86, R88, R160) -/

theorem dispatch_one (s : State) : dispatch 1 s = execReduce s := rfl

theorem dispatch_two (s : State) : dispatch 2 s = execTint s := rfl

theorem dispatch_three (s : State) : dispatch 3 s = execEncode s := rfl

theorem dispatch_of_decode {v : Word} {i : Instr} (h : decode v = .ok i) (s : State) : dispatch v s = exec i s := by
  rw [dispatch, h]

/-- The words above the opcode map are illegal, whether RSVD or OP makes them so. -/
theorem decode_of_ge_four {v : Word} (h : 4 ≤ v.toNat) : ∃ e, decode v = .error e := by
  rcases decode_cases v with ⟨rfl, -⟩ | ⟨rfl, -⟩ | ⟨rfl, -⟩ | ⟨rfl, -⟩ | ⟨-, -, hd⟩ | ⟨-, hd⟩
  · exact absurd h (by decide)
  · exact absurd h (by decide)
  · exact absurd h (by decide)
  · exact absurd h (by decide)
  · exact ⟨_, hd⟩
  · exact ⟨_, hd⟩

theorem dispatch_of_ge_four {v : Word} (h : 4 ≤ v.toNat) (s : State) : dispatch v s = .next (s.raise .illegalCommand) := by
  obtain ⟨e, hd⟩ := decode_of_ge_four h
  rw [dispatch, hd]

/-! ### The checks of each command in their order, and no other cause (R171, R175) -/

theorem PixFormat.ofCode_eq_none_iff (c : Byte) : PixFormat.ofCode c = none ↔ 4 ≤ c.toNat := by
  refine ⟨fun h => Nat.le_of_not_lt fun hlt => ?_, ofCode_of_ge⟩
  obtain ⟨f, hf⟩ := ofCode_of_lt hlt
  rw [h] at hf
  cases hf

theorem reduceWith_unsupported {p : Params} {s : State} (h : 4 ≤ s.srcFmt.toNat) :
    reduceWith p s = .next (s.raise .unsupportedFormat) := by
  rw [reduceWith, PixFormat.ofCode_of_ge h]

theorem reduceWith_oversize {p : Params} {s : State} (hfmt : s.srcFmt.toNat < 4) (hsize : p.maxPixels < pixelCount s.srcDim) :
    reduceWith p s = .next (s.raise .capacityExceeded) := by
  obtain ⟨f, hf⟩ := PixFormat.ofCode_of_lt hfmt
  simp [reduceWith, hf, (p.fits_eq_false _).2 hsize]

theorem reduceWith_error_cause {p : Params} {s t : State} (h : reduceWith p s = .next t) (he : t.status.err ≠ 0) :
    4 ≤ s.srcFmt.toNat ∨ p.maxPixels < pixelCount s.srcDim := by
  rcases reduceWith_cases p s with ⟨hf, -⟩ | ⟨f, -, ⟨hsize, -⟩ | ⟨-, ⟨luma, -, hr⟩ | ⟨a, -, hr⟩⟩⟩
  · exact .inl ((PixFormat.ofCode_eq_none_iff _).1 hf)
  · exact .inr ((p.fits_eq_false _).1 hsize)
  · rw [hr] at h; cases h; exact absurd rfl he
  · rw [hr] at h; cases h

theorem tintWith_invalid {p : Params} {s : State} (h : s.status.grayValid = false) :
    tintWith p s = .next (s.raise .inputNotValid) := by
  simp [tintWith, h]

theorem tintWith_error_cause {p : Params} {s t : State} (h : tintWith p s = .next t) (he : t.status.err ≠ 0) :
    s.status.grayValid = false := by
  rcases tintWith_cases p s with ⟨hg, -⟩ | ⟨-, ⟨luma, -, ⟨-, hr⟩ | ⟨-, hr⟩⟩ | ⟨a, -, hr⟩⟩
  · exact hg
  · rw [hr] at h; cases h; exact absurd rfl he
  · rw [hr] at h; cases h; exact absurd rfl he
  · rw [hr] at h; cases h

theorem execEncode_invalid {s : State} (h : s.status.grayValid = false) : execEncode s = .next (s.raise .inputNotValid) := by
  simp [execEncode, h]

theorem execEncode_mismatch {s : State} (hg : s.status.grayValid = true) (hd : s.grayDim ≠ 0x00200080) :
    execEncode s = .next (s.raise .dimensionMismatch) := by
  have hdim : ¬ (dimWidth s.grayDim = Config.nativeW ∧ dimHeight s.grayDim = Config.nativeH) :=
    fun h => hd ((native_dims_iff _).1 h)
  rw [execEncode, if_pos hg, if_neg hdim]

theorem execEncode_error_cause {s t : State} (h : execEncode s = .next t) (he : t.status.err ≠ 0) :
    s.status.grayValid = false ∨ s.grayDim ≠ 0x00200080 := by
  rcases execEncode_cases s with ⟨hg, -⟩ | ⟨-, hd, -⟩ | ⟨-, -, ⟨luma, -, hr⟩ | ⟨a, -, hr⟩⟩
  · exact .inl hg
  · exact .inr fun e => hd ((native_dims_iff _).2 e)
  · rw [hr] at h; cases h; exact absurd rfl he
  · rw [hr] at h; cases h

/-- Every cause of a nonzero ERR after a CMD write: an illegal word, or a failed check of the command the word names. -/
theorem dispatch_error_cause {s t : State} {v : Word} (h : dispatch v s = .next t) (he : t.status.err ≠ 0) :
    4 ≤ v.toNat ∨ v = 1 ∧ (4 ≤ s.srcFmt.toNat ∨ params.maxPixels < pixelCount s.srcDim) ∨
    (v = 2 ∨ v = 3) ∧ s.status.grayValid = false ∨ v = 3 ∧ s.grayDim ≠ 0x00200080 := by
  rcases decode_cases v with ⟨-, hd⟩ | ⟨hv, hd⟩ | ⟨hv, hd⟩ | ⟨hv, hd⟩ | ⟨-, hop, -⟩ | ⟨hrsvd, -⟩
  · rw [dispatch_of_decode hd] at h; cases h; exact absurd rfl he
  · rw [dispatch_of_decode hd] at h
    exact .inr (.inl ⟨hv, reduceWith_error_cause h he⟩)
  · rw [dispatch_of_decode hd] at h
    exact .inr (.inr (.inl ⟨.inl hv, tintWith_error_cause h he⟩))
  · rw [dispatch_of_decode hd] at h
    rcases execEncode_error_cause h he with hg | hdim
    · exact .inr (.inr (.inl ⟨.inr hv, hg⟩))
    · exact .inr (.inr (.inr ⟨hv, hdim⟩))
  · exact .inl (by omega)
  · exact .inl (by omega)

/-- Settles O43: a clause per check, in the order of R175, and the list of causes. -/
theorem errorsAndTheirCodes : Obligations.ErrorsAndTheirCodes := by
  refine fun s v => ⟨fun hv => dispatch_of_ge_four hv s, ?_, ?_, ?_, ?_, fun t => dispatch_error_cause⟩
  · rintro rfl hfmt
    exact (dispatch_one s).trans (reduceWith_unsupported hfmt)
  · rintro rfl hfmt hsize
    exact (dispatch_one s).trans (reduceWith_oversize hfmt hsize)
  · rintro (rfl | rfl) hg
    · exact (dispatch_two s).trans (tintWith_invalid hg)
    · exact (dispatch_three s).trans (execEncode_invalid hg)
  · rintro rfl hg hd
    exact (dispatch_three s).trans (execEncode_mismatch hg hd)

end Sys2Proof.Machine

/-! PROOFS. The statements of 10_state.md: the STATUS word (R24), the header and payload of TXBUF (R43), what a step may change (R26 to
R28, R71), the invariant of the state, and the pipeline from SRC to TXBUF (R45). -/

namespace Sys2Proof.Machine

/-! ### The STATUS word (R24, R39) -/

/-- STATUS as its fields side by side, highest first. -/
theorem Status.toWord_eq_append (st : Status) :
    st.toWord = (0 : BitVec 21) ++ BitVec.ofBool st.frameValid ++ BitVec.ofBool st.toutValid ++ BitVec.ofBool st.grayValid ++
      (0 : BitVec 4) ++ st.err := by
  obtain ⟨err, g, t, f⟩ := st
  revert err g t f
  decide

/-- Settles O3, reading each bit off the fields laid side by side. -/
theorem statusWordLayout : Obligations.StatusWordLayout := by
  intro st k _
  rw [st.toWord_eq_append]
  simp only [BitVec.getLsbD_append]
  rcases Nat.lt_or_ge k 4 with h | h
  · rw [if_pos h, if_pos h]
  rw [if_neg (Nat.not_lt.2 h), if_neg (Nat.not_lt.2 h)]
  obtain h | rfl | rfl | rfl | h : k < 8 ∨ k = 8 ∨ k = 9 ∨ k = 10 ∨ 11 ≤ k := by omega
  · rw [if_pos (by omega)]
    repeat rw [if_neg (by omega)]
    exact BitVec.getLsbD_zero
  · cases st.grayValid <;> rfl
  · cases st.toutValid <;> rfl
  · cases st.frameValid <;> rfl
  · repeat rw [if_neg (by omega)]
    exact BitVec.getLsbD_zero

/-! ### TXBUF: the hard-wired header and the payload (R43) -/

theorem State.readBuf_payload (s : State) {a : Nat} (h : 4 ≤ a) : s.readBuf .txbuf a = s.txbuf.read a :=
  if_neg (Nat.not_lt.2 h)

/-- Settles O13: the header is read from the constant and not from the state. -/
theorem headerReadsConstant : Obligations.HeaderReadsConstant := fun _ => ⟨rfl, rfl, rfl, rfl⟩

/-- Settles O54, from the invariant's clause on the payload. -/
theorem payloadWrittenExactlyWhenFrameValid : Obligations.PayloadWrittenExactlyWhenFrameValid := by
  intro s a hinv hlo hhi
  obtain ⟨hempty, hfull⟩ := hinv.frameOk
  rw [s.readBuf_payload hlo]
  cases hv : s.status.frameValid with
  | false => simp [hempty hv]
  | true => simp [hfull hv a hlo hhi]

/-! ### What a step may change (R26 to R28, R71) -/

theorem eq_encode_of_decode {v : Word} {i : Instr} (h : decode v = .ok i) : v = encode i := by
  rcases decode_cases v with ⟨hv, hd⟩ | ⟨hv, hd⟩ | ⟨hv, hd⟩ | ⟨hv, hd⟩ | ⟨-, -, hd⟩ | ⟨-, hd⟩ <;>
    rw [hd] at h <;> cases h <;> exact hv

/-- Everything a CMD write answers: an error, or what the command named by its word answers. -/
theorem dispatch_next {v : Word} {s t : State} (h : dispatch v s = .next t) :
    (∃ e, t = s.raise e) ∨ ∃ i, v = encode i ∧ exec i s = .next t := by
  unfold dispatch at h
  split at h
  · next i hd => exact .inr ⟨i, eq_encode_of_decode hd, h⟩
  · cases h; exact .inl ⟨_, rfl⟩

/-- `t` is what a host access other than a CMD write may make of `s` (R71): all but the host's registers, SRC, the transaction taken and
the replies is as it was. -/
def State.HostOnly (s t : State) : Prop :=
  t = { s with srcFmt := t.srcFmt, srcDim := t.srcDim, tint := t.tint, src := t.src, pending := s.pending.tail, replies := t.replies }

/-- Where SRC changes at all, one byte inside its range was stored (R67, R68). -/
def State.SrcStore (s t : State) : Prop :=
  t.src = s.src ∨ ∃ a v, inRange params .src a = true ∧ t.src = s.src.write a v

theorem admit_regWrite {p : Params} {r : Transaction} {off : Nat} {v : Word} (h : admission p r = .ok (.regWrite off v)) :
    r = .wr off v := by
  rcases admit_ok h with ⟨_, -, -, -, e⟩ | ⟨_, _, hr, -, -, e⟩ | ⟨_, _, -, -, e⟩ | ⟨_, _, _, -, -, e⟩ <;> cases e
  exact hr

theorem State.withPending_of_cons {s : State} {r : Transaction} {rest : List Transaction} (h : s.pending = r :: rest) :
    s.withPending rest = s.withPending s.pending.tail := by
  rw [h, List.tail_cons]

theorem State.hostOnly_reply (s : State) (r : Reply) : s.HostOnly ((s.withPending s.pending.tail).reply r) := rfl

theorem State.hostOnly_writeReg (s : State) (off : Nat) (v : Word) :
    s.HostOnly ((s.withPending s.pending.tail).writeReg off v) ∧
    ((s.withPending s.pending.tail).writeReg off v).src = s.src := by
  rcases State.writeReg_cases (s.withPending s.pending.tail) off v with ⟨-, e⟩ | ⟨-, e⟩ | ⟨-, e⟩ | ⟨-, -, -, e⟩ <;>
    rw [e] <;> exact ⟨rfl, rfl⟩

theorem State.hostOnly_writeBuf (s : State) {b : Buffer} {a : Nat} (hr : inRange params b a = true) (v : Byte) :
    s.HostOnly ((s.withPending s.pending.tail).writeBuf b a v) ∧
    s.SrcStore ((s.withPending s.pending.tail).writeBuf b a v) := by
  cases b with
  | src => exact ⟨rfl, .inr ⟨a, v, hr, rfl⟩⟩
  | gray | tout | txbuf => exact ⟨rfl, .inl rfl⟩

/-- A step is a CMD write and its command, or changes only what host accesses may. -/
theorem step_next_split {s t : State} (h : step s = .next t) :
    (∃ v rest, s.pending = .wr 0 v :: rest ∧ dispatch v (s.withPending rest) = .next t) ∨ s.HostOnly t ∧ s.SrcStore t := by
  obtain ⟨-, ⟨hp, rfl⟩ | ⟨r, rest, hp, hcase⟩⟩ := step_next h
  · exact .inr ⟨by rw [State.HostOnly, hp, List.tail_nil, ← hp], .inl rfl⟩
  have hcons := State.withPending_of_cons hp
  rcases hcase with ⟨off, -, rfl⟩ | ⟨off, v, -, -, rfl⟩ | ⟨v, i, ha, hd, hx⟩ | ⟨v, e, ha, hd, rfl⟩ | ⟨b, a, v, -, -, rfl⟩ |
    ⟨b, a, v, ha, rfl⟩
  · exact .inr (hcons ▸ ⟨s.hostOnly_reply _, .inl rfl⟩)
  · obtain ⟨hhost, hsrc⟩ := s.hostOnly_writeReg off v
    exact .inr (hcons ▸ ⟨hhost, .inl hsrc⟩)
  · exact .inl ⟨v, rest, admit_regWrite ha ▸ hp, (dispatch_of_decode hd _).trans hx⟩
  · exact .inl ⟨v, rest, admit_regWrite ha ▸ hp, by rw [dispatch, hd]⟩
  · exact .inr (hcons ▸ ⟨s.hostOnly_reply _, .inl rfl⟩)
  · exact .inr (hcons ▸ s.hostOnly_writeBuf (inRange_of_admit_write ha) v)

/-- Settles O49: a step that is no CMD write changes only what host accesses may. -/
theorem onlyCommandsWriteOutputs : Obligations.OnlyCommandsWriteOutputs := by
  intro s t r rest hp hno h
  rcases step_next_split h with ⟨v, rest', hcmd, -⟩ | ⟨hhost, -⟩
  · exact absurd (List.cons.inj (hp.symm.trans hcmd)).1 (hno v)
  · rwa [State.HostOnly, hp] at hhost

/-! ### The VALID bits (R26 to R28) -/

/-- Each VALID bit of `st'` is that of `st`, or is 1 and `raised` allows the command of its unit. -/
def Status.ValidBitsBy (raised : Instr → Prop) (st st' : Status) : Prop :=
  (st'.grayValid = st.grayValid ∨ raised .reduce ∧ st'.grayValid = true) ∧
  (st'.toutValid = st.toutValid ∨ raised .tint ∧ st'.toutValid = true) ∧
  (st'.frameValid = st.frameValid ∨ raised .encode ∧ st'.frameValid = true)

theorem Status.ValidBitsBy.of_unchanged {raised : Instr → Prop} {st st' : Status} (hg : st'.grayValid = st.grayValid)
    (ht : st'.toutValid = st.toutValid) (hf : st'.frameValid = st.frameValid) : st.ValidBitsBy raised st' :=
  ⟨.inl hg, .inl ht, .inl hf⟩

theorem exec_pending {i : Instr} {s t : State} (h : exec i s = .next t) : t.pending = s.pending := by
  rcases exec_next h with ⟨e, rfl⟩ | ⟨-, rfl⟩ | ⟨-, luma, -, -, rfl⟩ | ⟨-, -, luma, -, ⟨-, rfl⟩ | ⟨-, rfl⟩⟩ | ⟨-, -, luma, -, rfl⟩ <;>
    rfl

/-- A command raises no VALID bit but its own unit's, and clears none. -/
theorem exec_validBits {i : Instr} {s t : State} (h : exec i s = .next t) : s.status.ValidBitsBy (· = i) t.status := by
  rcases exec_next h with ⟨e, rfl⟩ | ⟨-, rfl⟩ | ⟨rfl, luma, -, -, rfl⟩ | ⟨rfl, -, luma, -, ⟨-, rfl⟩ | ⟨-, rfl⟩⟩ | ⟨rfl, -, luma, -, rfl⟩
  · exact .of_unchanged rfl rfl rfl
  · exact .of_unchanged rfl rfl rfl
  · exact ⟨.inr ⟨rfl, rfl⟩, .inl rfl, .inl rfl⟩
  · exact ⟨.inl rfl, .inr ⟨rfl, rfl⟩, .inl rfl⟩
  · exact ⟨.inl rfl, .inr ⟨rfl, rfl⟩, .inl rfl⟩
  · exact ⟨.inl rfl, .inl rfl, .inr ⟨rfl, rfl⟩⟩

theorem State.HostOnly.status_eq {s t : State} (h : s.HostOnly t) : t.status = s.status := by
  rw [h]

/-- A step raises a VALID bit only where it takes a CMD write of the word of that bit's unit, and clears none. -/
theorem step_validBits {s t : State} (h : step s = .next t) :
    s.status.ValidBitsBy (fun i => s.pending = .wr 0 (encode i) :: t.pending) t.status := by
  rcases step_next_split h with ⟨v, rest, hp, hd⟩ | ⟨hhost, -⟩
  · rcases dispatch_next hd with ⟨e, rfl⟩ | ⟨i, rfl, hx⟩
    · exact .of_unchanged rfl rfl rfl
    · have hp : ∀ j, j = i → s.pending = .wr 0 (encode j) :: t.pending := by
        rintro j rfl
        rw [hp, exec_pending hx, State.withPending_pending]
      obtain ⟨hg, ht, hf⟩ := exec_validBits hx
      exact ⟨hg.imp_right (.imp_left (hp _)), ht.imp_right (.imp_left (hp _)), hf.imp_right (.imp_left (hp _))⟩
  · rw [hhost.status_eq]
    exact .of_unchanged rfl rfl rfl

/-- Settles O47: a bit that keeps its value or becomes 1 is not cleared. -/
theorem validBitsNeverCleared : Obligations.ValidBitsNeverCleared := by
  have keep : ∀ {b b' : Bool} {P : Prop}, b' = b ∨ P ∧ b' = true → b = true → b' = true := fun hb h =>
    hb.elim (·.trans h) And.right
  intro s t h
  obtain ⟨hg, ht, hf⟩ := step_validBits h
  exact ⟨keep hg, keep ht, keep hf⟩

/-- Settles O48: a bit that rises did not keep its value. -/
theorem validBitsSetByTheirCommand : Obligations.ValidBitsSetByTheirCommand := by
  have rise : ∀ {b b' : Bool} {P : Prop}, b' = b ∨ P ∧ b' = true → b = false → b' = true → P := fun hb h0 h1 =>
    hb.elim (fun e => absurd (h1.symm.trans (e.trans h0)) nofun) And.left
  intro s t h
  obtain ⟨hg, ht, hf⟩ := step_validBits h
  exact ⟨rise hg, rise ht, rise hf⟩

/-! ### The invariant (R25 to R28, R32 to R34, R41 to R43, R60) -/

/-- The bytes stored from address 0 upward are written. -/
theorem Memory.filled_splice (m : Memory) (bs : List Byte) : (m.splice 0 bs).filled bs.length := fun a ha => by
  have := Memory.read_splice_at (m := m) (a := 0) ha
  rw [Nat.zero_add] at this
  exact Option.isSome_of_eq_some this

/-- The invariant speaks of nothing the host writes but where SRC's bytes lie. -/
theorem State.Inv.of_hostOnly {s t : State} (h : s.Inv) (hhost : s.HostOnly t) (hsrc : s.SrcStore t) : t.Inv := by
  obtain ⟨hswf, hwf⟩ := h.canonical
  obtain ⟨hsin, hin⟩ := h.inBounds
  obtain ⟨htwf, htin⟩ : t.src.wf ∧ t.src.within 0 (inRange params .src) := by
    rcases hsrc with e | ⟨a, v, ha, e⟩ <;> rw [e]
    · exact ⟨hswf, hsin⟩
    · exact ⟨Memory.wf_write a v hswf, Memory.within_splice hsin (Nat.zero_le a) fun x hlo hhi => by
        obtain rfl : x = a := by rw [List.length_singleton] at hhi; omega
        exact ha⟩
  rw [hhost]
  exact ⟨⟨htwf, hwf⟩, ⟨htin, hin⟩, h.errLegal, h.grayOk, h.toutOk, h.frameOk, h.orderOk⟩

theorem State.Inv.withErr {s : State} (h : s.Inv) {e : BitVec 4} (he : e ≤ ErrCode.greatest) :
    State.Inv { s with status := s.status.withErr e } :=
  ⟨h.canonical, h.inBounds, he, h.grayOk, h.toutOk, h.frameOk, h.orderOk⟩

theorem ErrCode.code_le_greatest (e : ErrCode) : e.code ≤ ErrCode.greatest := by cases e <;> decide

theorem ErrCode.zero_le_greatest : (0 : BitVec 4) ≤ ErrCode.greatest := by decide

theorem State.Inv.reduced {s : State} (h : s.Inv) {luma : List Byte} (hlen : luma.length = pixelCount s.srcDim)
    (hfit : params.fits (pixelCount s.srcDim) = true) : (s.reduced luma).Inv := by
  obtain ⟨hsrc, hgray, hrest⟩ := h.canonical
  obtain ⟨isrc, igray, irest⟩ := h.inBounds
  have hroom : (s.gray.splice 0 luma).within 0 (inRange params .gray) :=
    Memory.within_splice igray (Nat.le_refl 0) fun x _ hx => by
      rw [Params.fits_iff] at hfit
      rw [inRange_gray]
      omega
  exact ⟨⟨hsrc, Memory.wf_splice 0 luma hgray, hrest⟩, ⟨isrc, hroom, irest⟩, ErrCode.zero_le_greatest,
    ⟨nofun, hlen ▸ s.gray.filled_splice luma, hfit⟩, h.toutOk, h.frameOk, fun _ => rfl, fun _ => rfl⟩

/-- TINT's writes keep the invariant when the bytes are the whole image the format and the GRAY size describe. -/
theorem State.Inv.tinted {s : State} (h : s.Inv) (hg : s.status.grayValid = true) {fmt : Byte} {bytes : List Byte}
    (hbytes : fmt = PixFormat.gray8Code ∧ bytes.length = pixelCount s.grayDim ∨
      fmt = PixFormat.bgr32Code ∧ bytes.length = 4 * pixelCount s.grayDim) : (s.tinted fmt bytes).Inv := by
  obtain ⟨hsrc, hgray, htout, htxbuf⟩ := h.canonical
  obtain ⟨isrc, igray, itout, itxbuf⟩ := h.inBounds
  obtain ⟨-, -, hfit⟩ := h.grayOk
  obtain ⟨-, hframe⟩ := h.orderOk
  have hroom : (s.tout.splice 0 bytes).within 0 (inRange params .tout) :=
    Memory.within_splice itout (Nat.le_refl 0) fun x _ hx => by
      rw [Params.fits_iff] at hfit
      rw [inRange_tout]
      omega
  have hfull := s.tout.filled_splice bytes
  have hwhole : fmt = PixFormat.gray8Code ∧ (s.tout.splice 0 bytes).filled (pixelCount s.grayDim) ∨
      fmt = PixFormat.bgr32Code ∧ (s.tout.splice 0 bytes).filled (4 * pixelCount s.grayDim) :=
    hbytes.imp (fun ⟨hf, hl⟩ => ⟨hf, hl ▸ hfull⟩) fun ⟨hf, hl⟩ => ⟨hf, hl ▸ hfull⟩
  exact ⟨⟨hsrc, hgray, Memory.wf_splice 0 bytes htout, htxbuf⟩, ⟨isrc, igray, hroom, itxbuf⟩, ErrCode.zero_le_greatest, h.grayOk,
    ⟨nofun, hwhole, hfit⟩, h.frameOk, fun _ => hg, hframe⟩

theorem State.Inv.encoded {s : State} (h : s.Inv) (hg : s.status.grayValid = true) {luma : List Byte} (hlen : luma.length = 4096) :
    (s.encoded luma).Inv := by
  obtain ⟨hsrc, hgray, htout, htxbuf⟩ := h.canonical
  obtain ⟨isrc, igray, itout, itxbuf⟩ := h.inBounds
  obtain ⟨htint, -⟩ := h.orderOk
  have hpay := payload_length luma hlen
  have hroom : (s.txbuf.splice 4 (payload luma)).within 4 (inRange params .txbuf) :=
    Memory.within_splice itxbuf (Nat.le_refl 4) fun x _ hx => by rw [inRange_txbuf]; omega
  have hfull : ∀ a, 4 ≤ a → a < 2052 → ((s.txbuf.splice 4 (payload luma)).read a).isSome = true := fun a hlo hhi => by
    rw [Memory.read_splice, if_pos (by omega), List.getElem?_eq_getElem (by omega)]
    rfl
  exact ⟨⟨hsrc, hgray, htout, Memory.wf_splice 4 _ htxbuf⟩, ⟨isrc, igray, itout, hroom⟩, ErrCode.zero_le_greatest, h.grayOk,
    h.toutOk, ⟨nofun, fun _ => hfull⟩, htint, fun _ => hg⟩

theorem exec_keeps_inv {i : Instr} {s t : State} (h : s.Inv) (hx : exec i s = .next t) : t.Inv := by
  rcases exec_next hx with ⟨e, rfl⟩ | ⟨-, rfl⟩ | ⟨-, luma, hlen, hfit, rfl⟩ | ⟨-, hg, luma, hlen, ⟨-, rfl⟩ | ⟨-, rfl⟩⟩ |
    ⟨-, hg, luma, hlen, rfl⟩
  · exact h.withErr e.code_le_greatest
  · exact h.withErr ErrCode.zero_le_greatest
  · exact h.reduced hlen hfit
  · exact h.tinted hg (.inl ⟨rfl, hlen⟩)
  · exact h.tinted hg (.inr ⟨rfl, by rw [flatMap_four_length (fun _ => rfl), hlen]⟩)
  · exact h.encoded hg hlen

theorem State.Inv.withPending {s : State} (h : s.Inv) (ts : List Transaction) : (s.withPending ts).Inv :=
  ⟨h.canonical, h.inBounds, h.errLegal, h.grayOk, h.toutOk, h.frameOk, h.orderOk⟩

theorem dispatch_keeps_inv {v : Word} {s t : State} (h : s.Inv) (hd : dispatch v s = .next t) : t.Inv := by
  rcases dispatch_next hd with ⟨e, rfl⟩ | ⟨i, -, hx⟩
  · exact h.withErr e.code_le_greatest
  · exact exec_keeps_inv h hx

/-- Settles O51: a host access leaves what the invariant speaks of but for one SRC store in range, and each command's writes are a whole
image (R104, R122) or the whole payload (R142). -/
theorem stepKeepsInvariant : Obligations.StepKeepsInvariant := by
  intro s t h hstep
  rcases step_next_split hstep with ⟨v, rest, -, hd⟩ | ⟨hhost, hsrc⟩
  · exact dispatch_keeps_inv (h.withPending rest) hd
  · exact h.of_hostOnly hhost hsrc

/-! ### From the source image to the frame (R45, R103, R142, R143) -/

/-- Bit k of a packed byte is the packed bit of sample k (R141). -/
theorem packGroup_getLsbD (s : List Byte) (b : Nat) {k : Nat} (hk : k < 8) :
    (packGroup s b).getLsbD k = (s[k]?.getD 0).getLsbD b := by
  induction s generalizing k with
  | nil => simp
  | cons x s ih =>
    rw [packGroup_cons, BitVec.getLsbD_or, bitOf_getLsbD]
    cases k with
    | zero => simp
    | succ k =>
      have hs := ih (k := k) (by omega)
      simp only [BitVec.getLsbD_shiftLeft, hk, Nat.add_sub_cancel, hs, List.getElem?_cons_succ]
      simp

/-- Where the payload holds bit 4+p of pixel (x, y) of a 128 by 32 image (R143). -/
theorem payload_getLsbD {luma : List Byte} (hlen : luma.length = 4096) {p y x : Nat} (hp : p < 4) (hy : y < 32) (hx : x < 128) :
    ∃ v, (payload luma)[512 * p + 16 * y + x / 8]? = some v ∧
      v.getLsbD (x % 8) = (luma[128 * y + x]?.getD 0).getLsbD (4 + p) := by
  have hk : x % 8 < 8 := Nat.mod_lt _ (by omega)
  have hr : 16 * y + x / 8 < 512 := by omega
  obtain ⟨group, hbyte, -, hsample⟩ := plane_getElem luma hlen p (16 * y + x / 8) hr
  refine ⟨packGroup group (4 + p), ?_, ?_⟩
  · rw [Nat.add_assoc, payload_getElem luma hlen hp hr, hbyte]
  · rw [packGroup_getLsbD group (4 + p) hk, hsample _ hk, show 8 * (16 * y + x / 8) + x % 8 = 128 * y + x by omega]

/-- REDUCE of a GRAY8 image that fits and is written stores SRC's bytes (R103, R104). -/
theorem execReduce_gray8 {s : State} {l : Nat → Byte} (hfmt : s.srcFmt = 0x00) (hfit : params.fits (pixelCount s.srcDim) = true)
    (hsrc : ∀ i, i < pixelCount s.srcDim → s.src.read i = some (l i)) :
    execReduce s = .next (s.reduced ((List.range (pixelCount s.srcDim)).map l)) := by
  have hc : collect (pixLuma params .gray8 s.src) (List.range (pixelCount s.srcDim)) = .ok _ :=
    collect_range_ok fun i hi => Memory.get_eq_ok.2 (hsrc i hi)
  have hf : PixFormat.ofCode s.srcFmt = some .gray8 := by rw [hfmt]; rfl
  simp [execReduce, reduceWith, hf, hfit, hc]

/-- ENCODE of a written 128 by 32 image stores its payload (R142). -/
theorem execEncode_native {s : State} {l : Nat → Byte} (hg : s.status.grayValid = true) (hd : s.grayDim = 0x00200080)
    (hgray : ∀ i, i < 4096 → s.gray.read i = some (l i)) :
    execEncode s = .next (s.encoded ((List.range 4096).map l)) := by
  have hc : collect s.gray.get (List.range 4096) = .ok _ := collect_range_ok fun i hi => Memory.get_eq_ok.2 (hgray i hi)
  rcases execEncode_cases s with ⟨h, -⟩ | ⟨-, h, -⟩ | ⟨-, -, ⟨luma, hc', hr⟩ | ⟨a, hc', -⟩⟩
  · rw [hg] at h; cases h
  · exact absurd ((native_dims_iff _).2 hd) h
  · rw [Except.ok.inj (hc.symm.trans hc')]; exact hr
  · rw [hc] at hc'; cases hc'

theorem State.encoded_readBuf_payload (s : State) {luma : List Byte} (hlen : luma.length = 4096) {i : Nat} (hi : i < 2048) :
    (s.encoded luma).readBuf .txbuf (4 + i) = (payload luma)[i]? := by
  have hpay := payload_length luma hlen
  rw [State.readBuf_payload _ (by omega), State.encoded_txbuf, Memory.read_splice, if_pos (by omega), Nat.add_sub_cancel_left]

/-- Settles O41: REDUCE copies SRC to GRAY, ENCODE packs GRAY. -/
theorem pipelineFromSourceToFrame : Obligations.PipelineFromSourceToFrame := by
  intro s l hfmt hdim hsrc
  have hN : pixelCount s.srcDim = 4096 := by rw [hdim]; decide
  have hfit : params.fits (pixelCount s.srcDim) = true := by rw [hN, Params.fits_iff]; exact params.maxPixels_ge
  have hreduce := execReduce_gray8 (l := l) hfmt hfit fun i hi => hsrc i (hN ▸ hi)
  rw [hN] at hreduce
  have hlen : ((List.range 4096).map l).length = 4096 := by simp
  have hencode := execEncode_native (s := s.reduced ((List.range 4096).map l)) (l := l) rfl hdim fun i hi => by
    rw [State.reduced_gray, Memory.read_splice, if_pos (by omega)]
    simp [hi]
  refine ⟨_, _, hreduce, hencode, rfl, rfl, fun p y x hp hy hx => ?_⟩
  obtain ⟨v, hv, hbit⟩ := payload_getLsbD hlen hp hy hx
  refine ⟨v, ?_, ?_⟩
  · rw [Nat.add_assoc 4, Nat.add_assoc 4, State.encoded_readBuf_payload _ hlen (by omega), hv]
  · rw [hbit, List.getElem?_map, List.getElem?_range (by omega)]
    rfl

end Sys2Proof.Machine

/-! PROOFS. The statements of 20_memory.md: what each admitted host access does (R61, R62, R65, R67) and which are not admitted (R63, R64,
R66, R68), what a command writes and that repeating it changes nothing (R70, R71), and where the model fault comes from (R174). -/

namespace Sys2Proof.Machine

/-! ### Register accesses (R61, R62) -/

theorem step_rd {s : State} {off : Nat} {rest : List Transaction} (hf : s.faultRecord = none) (hp : s.pending = .rd off :: rest)
    (h4 : off % 4 = 0) (hm : off ≤ 0xFC) : step s = .next ((s.withPending rest).reply (.word (s.readReg params off))) := by
  rw [step_pending hf hp, transact_ok (admit_rd h4 hm params), perform, State.withPending_readReg]

theorem step_wr {s : State} {off : Nat} {v : Word} {rest : List Transaction} (hf : s.faultRecord = none)
    (hp : s.pending = .wr off v :: rest) (h4 : off % 4 = 0) (hm : off ≤ 0xFC) :
    step s = if off = 0 then dispatch v (s.withPending rest) else .next ((s.withPending rest).writeReg off v) := by
  rw [step_pending hf hp, transact_ok (admit_wr h4 hm v params)]
  rfl

theorem flagBit_eq_toNat (b : Bool) : flagBit b = b.toNat := by cases b <;> rfl

/-- STATUS as a number: the sum of its fields at their places, which fits the word (R24). -/
theorem Status.toWord_toNat (st : Status) :
    st.toWord.toNat = st.err.toNat + 2 ^ 8 * st.grayValid.toNat + 2 ^ 9 * st.toutValid.toNat + 2 ^ 10 * st.frameValid.toNat := by
  have he := st.err.isLt
  have hg := st.grayValid.toNat_le
  have ht := st.toutValid.toNat_le
  have hf := st.frameValid.toNat_le
  simp only [toWord, BitVec.toNat_ofNat, flagBit_eq_toNat]
  omega

theorem State.readReg_unmapped {p : Params} {s : State} {off : Nat} (h : 0x2C ≤ off) : s.readReg p off = 0 := by
  rw [readReg, Reg.ofOffset_unmapped h]

/-- Settles O2: the reply is `State.readReg`, taken apart at each offset of the map. -/
theorem regReadReturnsTheMap : Obligations.RegReadReturnsTheMap := by
  intro s off rest hf hp h4 hm
  refine ⟨s.readReg params off, step_rd hf hp h4 hm, ?cmd, ?status, ?srcFmt, ?srcDim, ?tint, ?grayDim, ?toutFmt, ?toutDim,
    ?nativeDim, ?txbufLen, ?maxPix, State.readReg_unmapped⟩
  case status => rintro rfl; exact s.status.toWord_toNat
  case srcFmt | toutFmt => rintro rfl; exact BitVec.toNat_setWidth_of_le (by decide)
  case maxPix => rintro rfl; exact s.readReg_maxPix_toNat params
  all_goals rintro rfl; rfl

/-- The low byte of a register word, as SRC_FMT stores it (R29). -/
theorem setWidth_byte_eq_ofNat (v : Word) : v.setWidth 8 = BitVec.ofNat 8 (v.toNat % 256) := by
  apply BitVec.eq_of_toNat_eq
  simp

/-- Settles O4, along the cases of `State.writeReg`. -/
theorem regWriteEffects : Obligations.RegWriteEffects := by
  intro s off v rest hf hp h4 hm
  rw [step_wr hf hp h4 hm]
  by_cases h0 : off = 0
  · rw [if_pos h0, if_pos h0]
    rfl
  rw [if_neg h0, if_neg h0]
  rcases State.writeReg_cases (s.withPending rest) off v with ⟨rfl, e⟩ | ⟨rfl, e⟩ | ⟨rfl, e⟩ | ⟨h8, hC, h10, e⟩
  · rw [e, setWidth_byte_eq_ofNat]; rfl
  · rw [e]; rfl
  · rw [e]; rfl
  · rw [e, if_neg h8, if_neg hC, if_neg h10]; rfl

/-- Settles O5: the step of a CMD write is the dispatch of its word. -/
theorem cmdWriteRunsDecodedCommand : Obligations.CmdWriteRunsDecodedCommand := by
  intro s v i rest hf hp hd
  rw [step_wr hf hp rfl (Nat.zero_le _), if_pos rfl, dispatch_of_decode hd]
  rfl

/-! ### Buffer accesses (R65, R67, R71, R76) -/

theorem step_lb_written {s : State} {b : Buffer} {a : Nat} {v : Byte} {rest : List Transaction} (hf : s.faultRecord = none)
    (hp : s.pending = .lb b a :: rest) (hr : inRange params b a = true) (hv : s.readBuf b a = some v) :
    step s = .next ((s.withPending rest).reply (.byte v)) := by
  rw [step_pending hf hp, transact_ok (admit_lb hr), perform, State.withPending_readBuf, hv]

theorem step_lb_unwritten {s : State} {b : Buffer} {a : Nat} {rest : List Transaction} (hf : s.faultRecord = none)
    (hp : s.pending = .lb b a :: rest) (hr : inRange params b a = true) (hv : s.readBuf b a = none) :
    step s = .fault (.unwrittenRead b a) := by
  rw [step_pending hf hp, transact_ok (admit_lb hr), perform, State.withPending_readBuf, hv]

theorem step_sb {s : State} {b : Buffer} {a : Nat} {v : Byte} {rest : List Transaction} (hf : s.faultRecord = none)
    (hp : s.pending = .sb b a v :: rest) (hr : inRange params b a = true) :
    step s = .next ((s.withPending rest).writeBuf b a v) := by
  rw [step_pending hf hp, transact_ok (admit_sb hr v), perform]

theorem State.readBuf_writeBuf_src (s : State) (a : Nat) (v : Byte) (x : Nat) :
    (s.writeBuf .src a v).readBuf .src x = if x = a then some v else s.readBuf .src x :=
  s.src.read_write a v x

theorem State.writeBuf_of_ne_src {s : State} {b : Buffer} (hb : b ≠ .src) (a : Nat) (v : Byte) : s.writeBuf b a v = s := by
  cases b with
  | src => exact absurd rfl hb
  | gray | tout | txbuf => rfl

/-- The ranges of R60, one per buffer. -/
theorem inRange_of_bounds {p : Params} {b : Buffer} {a : Nat} (hsrc : b = .src → a < 4 * p.maxPixels)
    (hgray : b = .gray → a < p.maxPixels) (htout : b = .tout → a < 4 * p.maxPixels) (htxbuf : b = .txbuf → a < 2052) :
    inRange p b a = true := by
  cases b with
  | src => exact (inRange_src p a).2 (hsrc rfl)
  | gray => exact (inRange_gray p a).2 (hgray rfl)
  | tout => exact (inRange_tout p a).2 (htout rfl)
  | txbuf => exact (inRange_txbuf p a).2 (htxbuf rfl)

/-- Settles O7, by whether the byte is written. -/
theorem bufReadReturnsByteOrFaults : Obligations.BufReadReturnsByteOrFaults := by
  intro s b a rest hf hp hsrc hgray htout htxbuf
  have hr := inRange_of_bounds hsrc hgray htout htxbuf
  exact ⟨fun v hv => step_lb_written hf hp hr hv, step_lb_unwritten hf hp hr⟩

/-- Settles O8: `State.writeBuf` stores in SRC and is the identity elsewhere. -/
theorem bufWriteStoresOnlyInSrc : Obligations.BufWriteStoresOnlyInSrc := by
  intro s b a v rest hf hp hsrc hgray htout htxbuf
  have hstep := step_sb hf hp (inRange_of_bounds hsrc hgray htout htxbuf)
  refine ⟨?_, fun hb => ?_⟩
  · rintro rfl
    exact ⟨_, hstep, rfl, (State.readBuf_writeBuf_src _ a v a).trans (if_pos rfl), fun x hx =>
      (State.readBuf_writeBuf_src _ a v x).trans (if_neg hx)⟩
  · rw [hstep, State.writeBuf_of_ne_src hb]
    rfl

/-- Settles O11: the read's step finds what `State.writeBuf` left at its address. -/
theorem srcReadReturnsLatestWrite : Obligations.SrcReadReturnsLatestWrite := by
  intro s a x v rest hf hp ha hx
  have hread := State.readBuf_writeBuf_src (s.withPending (.lb .src x :: rest)) a v x
  have hstep := fun w => step_lb_written (s := (s.withPending (.lb .src x :: rest)).writeBuf .src a v) (v := w) hf rfl
    ((inRange_src params x).2 hx)
  refine ⟨_, step_sb hf hp ((inRange_src params a).2 ha), fun hxa => ?_, fun w hxa hw => ?_⟩
  · exact hstep v (hread.trans (if_pos hxa))
  · exact hstep w (hread.trans ((if_neg hxa).trans ((s.withPending_readBuf ..).trans hw)))

/-- A read that has a next state is of a register of the map's range, or of a written byte. -/
theorem step_read_next {s t : State} {r : Transaction} {rest : List Transaction} (hp : s.pending = r :: rest) (hr : r.data = none)
    (h : step s = .next t) : s.faultRecord = none ∧
      ((∃ off, r = .rd off ∧ off % 4 = 0 ∧ off ≤ 0xFC) ∨
        ∃ b a v, r = .lb b a ∧ inRange params b a = true ∧ s.readBuf b a = some v) := by
  have hf := (step_next h).1
  refine ⟨hf, ?_⟩
  rw [step_pending hf hp] at h
  unfold transact at h
  split at h
  · next acc hacc =>
    rcases admit_ok hacc with ⟨off, hrd, h4, hm, -⟩ | ⟨off, v, rfl, -⟩ | ⟨b, a, hlb, hin, rfl⟩ | ⟨b, a, v, rfl, -⟩
    · exact .inl ⟨off, hrd, h4, hm⟩
    · cases hr
    · cases hv : s.readBuf b a with
      | some v => exact .inr ⟨b, a, v, hlb, hin, hv⟩
      | none =>
        rw [perform, State.withPending_readBuf, hv] at h
        cases h
    · cases hr
  · cases h

/-- Settles O12: the second read finds the registers and buffers as the first did. -/
theorem readsAreIdempotent : Obligations.ReadsAreIdempotent := by
  intro s t u r rest hp hr hst htu
  obtain ⟨hf, ⟨off, rfl, h4, hm⟩ | ⟨b, a, v, rfl, hin, hv⟩⟩ := step_read_next hp hr hst
  · cases (step_rd hf hp h4 hm).symm.trans hst
    have htwice := step_rd (s := (s.withPending (.rd off :: rest)).reply (.word (s.readReg params off))) hf rfl h4 hm
    rw [State.reply_readReg, State.withPending_readReg] at htwice
    cases htwice.symm.trans htu
    exact ⟨_, rfl, rfl⟩
  · cases (step_lb_written hf hp hin hv).symm.trans hst
    have hagain : ((s.withPending (.lb b a :: rest)).reply (.byte v)).readBuf b a = some v := by
      rw [State.reply_readBuf, State.withPending_readBuf, hv]
    have htwice := step_lb_written (s := (s.withPending (.lb b a :: rest)).reply (.byte v)) hf rfl hin hagain
    cases htwice.symm.trans htu
    exact ⟨_, rfl, rfl⟩

/-! ### Admission (R61 to R68) -/

theorem admit_reg_bounds {p : Params} {t : Transaction} {acc : Access} (h : admission p t = .ok acc) (hs : t.space = .reg) :
    t.width = 32 ∧ t.addr % 4 = 0 ∧ t.addr ≤ 0xFC := by
  rcases admit_ok h with ⟨off, rfl, h4, hm, -⟩ | ⟨off, v, rfl, h4, hm, -⟩ | ⟨b, a, rfl, -⟩ | ⟨b, a, v, rfl, -⟩
  · exact ⟨rfl, h4, hm⟩
  · exact ⟨rfl, h4, hm⟩
  · cases hs
  · cases hs

theorem admit_buf_bounds {p : Params} {t : Transaction} {acc : Access} {b : Buffer} (h : admission p t = .ok acc)
    (hs : t.space = .buf b) : t.width = 8 ∧ inRange p b t.addr = true := by
  rcases admit_ok h with ⟨off, rfl, -⟩ | ⟨off, v, rfl, -⟩ | ⟨b', a, rfl, hr, -⟩ | ⟨b', a, v, rfl, hr, -⟩
  · cases hs
  · cases hs
  · cases hs; exact ⟨rfl, hr⟩
  · cases hs; exact ⟨rfl, hr⟩

/-- Settles O9: an admitted transaction has its space's width and lies in its space's range. -/
theorem unadmittedAccessHasNoStep : Obligations.UnadmittedAccessHasNoStep := by
  intro s t rest hf hp hbad
  cases hadm : admission params t with
  | error why => exact ⟨why, by rw [step_pending hf hp, transact, hadm]⟩
  | ok acc =>
    exfalso
    rcases hbad with ⟨hs, hbad⟩ | ⟨b, hs, hw⟩ | ⟨hs, ha⟩ | ⟨hs, ha⟩ | ⟨hs, ha⟩ | ⟨hs, ha⟩
    · obtain ⟨hw, h4, hm⟩ := admit_reg_bounds hadm hs
      omega
    · exact hw (admit_buf_bounds hadm hs).1
    · exact Nat.not_lt.2 ha ((inRange_src ..).1 (admit_buf_bounds hadm hs).2)
    · exact Nat.not_lt.2 ha ((inRange_gray ..).1 (admit_buf_bounds hadm hs).2)
    · exact Nat.not_lt.2 ha ((inRange_tout ..).1 (admit_buf_bounds hadm hs).2)
    · exact Nat.not_lt.2 ha ((inRange_txbuf ..).1 (admit_buf_bounds hadm hs).2)

/-- A register transaction in bounds is admitted (R61, R62). -/
theorem admit_reg_of_bounds (p : Params) {t : Transaction} (hs : t.space = .reg) (hw : t.width = 32) (h4 : t.addr % 4 = 0)
    (hm : t.addr ≤ 0xFC) (hd : ∀ d, t.data = some d → d < 2 ^ 32) : ∃ acc, admission p t = .ok acc := by
  obtain ⟨sp, a, w, d⟩ := t
  cases hs
  cases hw
  cases d with
  | none => exact ⟨_, admit_rd h4 hm p⟩
  | some d =>
    have hwr : (⟨.reg, a, 32, some d⟩ : Transaction) = .wr a (BitVec.ofNat 32 d) := by
      rw [Transaction.wr, BitVec.toNat_ofNat, Nat.mod_eq_of_lt (hd d rfl)]
    exact ⟨_, (congrArg _ hwr).trans (admit_wr h4 hm _ p)⟩

/-- A buffer transaction in bounds is admitted (R65, R67). -/
theorem admit_buf_of_bounds {p : Params} {t : Transaction} {b : Buffer} (hs : t.space = .buf b) (hw : t.width = 8)
    (hr : inRange p b t.addr = true) (hd : ∀ d, t.data = some d → d < 2 ^ 8) : ∃ acc, admission p t = .ok acc := by
  obtain ⟨sp, a, w, d⟩ := t
  cases hs
  cases hw
  cases d with
  | none => exact ⟨_, admit_lb hr⟩
  | some d =>
    have hsb : (⟨.buf b, a, 8, some d⟩ : Transaction) = .sb b a (BitVec.ofNat 8 d) := by
      rw [Transaction.sb, BitVec.toNat_ofNat, Nat.mod_eq_of_lt (hd d rfl)]
    exact ⟨_, (congrArg _ hsb).trans (admit_sb hr _)⟩

theorem dispatch_next_or_fault (v : Word) (s : State) :
    (∃ t, dispatch v s = .next t) ∨ ∃ b a, dispatch v s = .fault (.unwrittenRead b a) := by
  unfold dispatch
  split
  · exact exec_next_or_fault _ s
  · exact .inl ⟨_, rfl⟩

/-- An admitted access answers a next state or the model fault, never a refusal. -/
theorem perform_next_or_fault (p : Params) (acc : Access) (s : State) :
    (∃ t, perform p acc s = .next t) ∨ ∃ b a, perform p acc s = .fault (.unwrittenRead b a) := by
  cases acc with
  | regRead off => exact .inl ⟨_, rfl⟩
  | regWrite off v =>
    rw [perform]
    split
    · exact dispatch_next_or_fault v s
    · exact .inl ⟨_, rfl⟩
  | bufRead b a =>
    rw [perform]
    split
    · exact .inl ⟨_, rfl⟩
    · exact .inr ⟨b, a, rfl⟩
  | bufWrite b a v => exact .inl ⟨_, rfl⟩

/-- Settles O10: a transaction in bounds is admitted, and an admitted access is never refused. -/
theorem admittedAccessHasStep : Obligations.AdmittedAccessHasStep := by
  intro s t rest hf hp hok
  have hadm : ∃ acc, admission params t = .ok acc := by
    rcases hok with ⟨hs, hw, h4, hm, hd⟩ | ⟨hw, hd, ⟨hs, ha⟩ | ⟨hs, ha⟩ | ⟨hs, ha⟩ | ⟨hs, ha⟩⟩
    · exact admit_reg_of_bounds params hs hw h4 hm hd
    · exact admit_buf_of_bounds hs hw ((inRange_src ..).2 ha) hd
    · exact admit_buf_of_bounds hs hw ((inRange_gray ..).2 ha) hd
    · exact admit_buf_of_bounds hs hw ((inRange_tout ..).2 ha) hd
    · exact admit_buf_of_bounds hs hw ((inRange_txbuf ..).2 ha) hd
  obtain ⟨acc, hadm⟩ := hadm
  rw [step_pending hf hp, transact_ok hadm]
  exact perform_next_or_fault params acc _

/-! ### What a command leaves alone (R70, R87) -/

theorem exec_keeps_gray {i : Instr} {s t : State} (h : exec i s = .next t) (hi : i ≠ .reduce) :
    t.gray = s.gray ∧ t.grayDim = s.grayDim ∧ t.status.grayValid = s.status.grayValid := by
  rcases exec_next h with ⟨e, rfl⟩ | ⟨-, rfl⟩ | ⟨rfl, -⟩ | ⟨-, -, luma, -, ⟨-, rfl⟩ | ⟨-, rfl⟩⟩ | ⟨-, -, luma, -, rfl⟩
  case inr.inr.inl => exact absurd rfl hi
  all_goals exact ⟨rfl, rfl, rfl⟩

theorem exec_keeps_tout {i : Instr} {s t : State} (h : exec i s = .next t) (hi : i ≠ .tint) :
    t.tout = s.tout ∧ t.toutFmt = s.toutFmt ∧ t.toutDim = s.toutDim ∧ t.status.toutValid = s.status.toutValid := by
  rcases exec_next h with ⟨e, rfl⟩ | ⟨-, rfl⟩ | ⟨-, luma, -, -, rfl⟩ | ⟨rfl, -⟩ | ⟨-, -, luma, -, rfl⟩
  case inr.inr.inr.inl => exact absurd rfl hi
  all_goals exact ⟨rfl, rfl, rfl, rfl⟩

theorem exec_keeps_txbuf {i : Instr} {s t : State} (h : exec i s = .next t) (hi : i ≠ .encode) :
    t.txbuf = s.txbuf ∧ t.status.frameValid = s.status.frameValid := by
  rcases exec_next h with ⟨e, rfl⟩ | ⟨-, rfl⟩ | ⟨-, luma, -, -, rfl⟩ | ⟨-, -, luma, -, ⟨-, rfl⟩ | ⟨-, rfl⟩⟩ | ⟨rfl, -⟩
  case inr.inr.inr.inr => exact absurd rfl hi
  all_goals exact ⟨rfl, rfl⟩

/-- No command writes what the host owns, the fault record or the bus. -/
theorem exec_keeps_host_state {i : Instr} {s t : State} (h : exec i s = .next t) :
    t.src = s.src ∧ t.srcFmt = s.srcFmt ∧ t.srcDim = s.srcDim ∧ t.tint = s.tint ∧ t.faultRecord = s.faultRecord ∧
    t.pending = s.pending ∧ t.replies = s.replies := by
  rcases exec_next h with ⟨e, rfl⟩ | ⟨-, rfl⟩ | ⟨-, luma, -, -, rfl⟩ | ⟨-, -, luma, -, ⟨-, rfl⟩ | ⟨-, rfl⟩⟩ | ⟨-, -, luma, -, rfl⟩ <;>
    exact ⟨rfl, rfl, rfl, rfl, rfl, rfl, rfl⟩

/-- Settles O45, a lemma per unit's outputs. -/
theorem commandsTouchOnlyTheirOutputs : Obligations.CommandsTouchOnlyTheirOutputs := fun _ _ _ h =>
  ⟨exec_keeps_gray h, exec_keeps_tout h, exec_keeps_txbuf h, exec_keeps_host_state h⟩

/-! ### Repeating a command (R71, R105, R124, R142) -/

theorem State.raise_raise (s : State) (e e' : ErrCode) : (s.raise e).raise e' = s.raise e' := rfl

theorem State.raise_encoded (s : State) (e : ErrCode) (luma : List Byte) : (s.raise e).encoded luma = s.encoded luma := rfl

/-- No command reads ERR (R170), so a raised error does not show to the next command. -/
theorem exec_raise (i : Instr) (s : State) (e : ErrCode) : exec i (s.raise e) = exec i s := by
  cases i with
  | nop | reduce | tint => rfl
  | encode =>
    simp only [exec, execEncode, State.raise_status, Status.withErr_grayValid, State.raise_grayDim, State.raise_gray,
      State.raise_raise, State.raise_encoded]
    rfl

theorem State.reduced_reduced (s : State) (luma : List Byte) : (s.reduced luma).reduced luma = s.reduced luma := by
  simp only [State.reduced, Memory.splice_splice]
  rfl

theorem State.tinted_tinted (s : State) (fmt : Byte) (bytes : List Byte) :
    (s.tinted fmt bytes).tinted fmt bytes = s.tinted fmt bytes := by
  simp only [State.tinted, Memory.splice_splice]
  rfl

theorem State.encoded_encoded (s : State) (luma : List Byte) : (s.encoded luma).encoded luma = s.encoded luma := by
  simp only [State.encoded, Memory.splice_splice]
  rfl

theorem reduceWith_of_collect {p : Params} {s : State} {f : PixFormat} {luma : List Byte} (hf : PixFormat.ofCode s.srcFmt = some f)
    (hfit : p.fits (pixelCount s.srcDim) = true)
    (hc : collect (pixLuma p f s.src) (List.range (pixelCount s.srcDim)) = .ok luma) : reduceWith p s = .next (s.reduced luma) := by
  simp [reduceWith, hf, hfit, hc]

theorem tintWith_of_collect {p : Params} {s : State} {luma : List Byte} (hg : s.status.grayValid = true)
    (hc : collect s.gray.get (List.range (pixelCount s.grayDim)) = .ok luma) :
    tintWith p s = if tintA s.tint = 0 then .next (s.tinted PixFormat.gray8Code luma)
      else .next (s.tinted PixFormat.bgr32Code (luma.flatMap (shadePixel p s.tint))) := by
  rw [tintWith, if_pos hg, hc]

theorem execEncode_of_collect {s : State} {luma : List Byte} (hg : s.status.grayValid = true)
    (hd : dimWidth s.grayDim = 128 ∧ dimHeight s.grayDim = 32) (hc : collect s.gray.get (List.range 4096) = .ok luma) :
    execEncode s = .next (s.encoded luma) := by
  rcases execEncode_cases s with ⟨hg', -⟩ | ⟨-, hd', -⟩ | ⟨-, -, ⟨luma', hc', hr⟩ | ⟨a, hc', -⟩⟩
  · rw [hg] at hg'; cases hg'
  · exact absurd hd hd'
  · cases hc.symm.trans hc'; exact hr
  · cases hc.symm.trans hc'

theorem exec_reduce_idempotent {s t : State} (h : exec .reduce s = .next t) : exec .reduce t = .next t := by
  rcases reduceWith_cases params s with ⟨-, hr⟩ | ⟨f, hf, ⟨-, hr⟩ | ⟨hfit, ⟨luma, hc, hr⟩ | ⟨a, -, hr⟩⟩⟩ <;>
    cases hr.symm.trans h
  · exact (exec_raise ..).trans hr
  · exact (exec_raise ..).trans hr
  · exact (reduceWith_of_collect (s := s.reduced luma) hf hfit hc).trans (by rw [State.reduced_reduced])

theorem exec_tint_idempotent {s t : State} (h : exec .tint s = .next t) : exec .tint t = .next t := by
  rcases tintWith_cases params s with ⟨-, hr⟩ | ⟨hg, ⟨luma, hc, ⟨ha, hr⟩ | ⟨ha, hr⟩⟩ | ⟨a, -, hr⟩⟩ <;>
    cases hr.symm.trans h
  · exact (exec_raise ..).trans hr
  · exact (tintWith_of_collect (s := s.tinted _ luma) hg hc).trans
      ((if_pos ha).trans (congrArg _ (s.tinted_tinted ..)))
  · exact (tintWith_of_collect (s := s.tinted _ (luma.flatMap _)) hg hc).trans
      ((if_neg ha).trans (congrArg _ (s.tinted_tinted ..)))

theorem exec_encode_idempotent {s t : State} (h : exec .encode s = .next t) : exec .encode t = .next t := by
  rcases execEncode_cases s with ⟨-, hr⟩ | ⟨-, -, hr⟩ | ⟨hg, hd, ⟨luma, hc, hr⟩ | ⟨a, -, hr⟩⟩ <;>
    cases hr.symm.trans h
  · exact (exec_raise ..).trans hr
  · exact (exec_raise ..).trans hr
  · exact (execEncode_of_collect (s := s.encoded luma) hg hd hc).trans (by rw [State.encoded_encoded])

/-- Settles O46: the repeated command reads the same inputs and stores the same bytes. -/
theorem commandsAreIdempotent : Obligations.CommandsAreIdempotent := by
  intro i s t h
  cases i with
  | nop => cases h; rfl
  | reduce => exact exec_reduce_idempotent h
  | tint => exact exec_tint_idempotent h
  | encode => exact exec_encode_idempotent h

/-! ### Where the model fault comes from (R65, R104, R174) -/

theorem admit_bufRead {p : Params} {r : Transaction} {b : Buffer} {a : Nat} (h : admission p r = .ok (.bufRead b a)) :
    r = .lb b a := by
  rcases admit_ok h with ⟨_, -, -, -, e⟩ | ⟨_, _, -, -, -, e⟩ | ⟨_, _, hr, -, e⟩ | ⟨_, _, _, -, -, e⟩ <;> cases e
  exact hr

theorem dispatch_fault {v : Word} {s : State} {f : Fault} (h : dispatch v s = .fault f) :
    ∃ i, v = encode i ∧ exec i s = .fault f := by
  unfold dispatch at h
  split at h
  · next i hd => exact ⟨i, eq_encode_of_decode hd, h⟩
  · cases h

/-- An admitted access that faults reads an unwritten byte or runs a faulting command. -/
theorem perform_fault {p : Params} {acc : Access} {s : State} {f : Fault} (h : perform p acc s = .fault f) :
    (∃ b a, acc = .bufRead b a ∧ s.readBuf b a = none ∧ f = .unwrittenRead b a) ∨
    ∃ i, acc = .regWrite 0 (encode i) ∧ exec i s = .fault f := by
  cases acc with
  | regRead off => cases h
  | regWrite off v =>
    rw [perform] at h
    split at h
    · next h0 =>
      obtain ⟨i, rfl, hx⟩ := dispatch_fault h
      exact .inr ⟨i, h0 ▸ rfl, hx⟩
    · cases h
  | bufRead b a =>
    rw [perform] at h
    split at h
    · cases h
    · next hv => cases h; exact .inl ⟨b, a, rfl, hv, rfl⟩
  | bufWrite b a v => cases h

/-- Every step that raises a fault: a host read of an unwritten byte, or a CMD write of a command that faults. -/
theorem step_fault {s : State} {f : Fault} (hf : s.faultRecord = none) (h : step s = .fault f) :
    (∃ b a rest, s.pending = .lb b a :: rest ∧ s.readBuf b a = none ∧ f = .unwrittenRead b a) ∨
    ∃ i rest, s.pending = .wr 0 (encode i) :: rest ∧ exec i (s.withPending rest) = .fault f := by
  cases hp : s.pending with
  | nil => rw [step, stepOnce, hf, hp] at h; cases h
  | cons t rest =>
    rw [step_pending hf hp, transact] at h
    split at h
    · next acc hadm =>
      rcases perform_fault h with ⟨b, a, rfl, hv, rfl⟩ | ⟨i, rfl, hx⟩
      · rw [State.withPending_readBuf] at hv
        exact .inl ⟨b, a, rest, by rw [admit_bufRead hadm], hv, rfl⟩
      · exact .inr ⟨i, rest, by rw [admit_regWrite hadm], hx⟩
    · cases h

/-- The FMT code of a supported format (R100). -/
def PixFormat.code (f : PixFormat) : Byte :=
  match f with
  | .gray8 => 0
  | .bgr24 => 1
  | .bgra32 => 2
  | .bgr32 => 3

theorem PixFormat.eq_code_of_ofCode {c : Byte} {f : PixFormat} (h : PixFormat.ofCode c = some f) : c = f.code := by
  unfold ofCode at h
  split at h <;> cases h
  all_goals exact BitVec.eq_of_toNat_eq ‹_›

/-- A pixel fetch that fails names a byte REDUCE reads, which is unwritten (R103). -/
theorem pixLuma_error {p : Params} {s : State} {f : PixFormat} {i a : Nat} (hf : PixFormat.ofCode s.srcFmt = some f)
    (hi : i < pixelCount s.srcDim) (h : pixLuma p f s.src i = .error a) : s.reduceReads a ∧ s.src.read a = none := by
  have hcode := PixFormat.eq_code_of_ofCode hf
  cases f with
  | gray8 =>
    obtain ⟨rfl, hnone⟩ := Memory.get_eq_error.1 h
    exact ⟨⟨a, 0, hi, .inl ⟨hcode, rfl⟩⟩, hnone⟩
  | bgr24 =>
    obtain ⟨k, hk, ha, hnone⟩ := colourLuma_error h
    exact ⟨⟨i, k, hi, .inr (.inl ⟨hcode, hk, ha⟩)⟩, hnone⟩
  | bgra32 =>
    obtain ⟨k, hk, ha, hnone⟩ := colourLuma_error h
    exact ⟨⟨i, k, hi, .inr (.inr ⟨.inl hcode, hk, ha⟩)⟩, hnone⟩
  | bgr32 =>
    obtain ⟨k, hk, ha, hnone⟩ := colourLuma_error h
    exact ⟨⟨i, k, hi, .inr (.inr ⟨.inr hcode, hk, ha⟩)⟩, hnone⟩

/-- REDUCE faults on an unwritten SRC byte that it reads (R103, R104). -/
theorem exec_reduce_fault {s : State} {b : Buffer} {a : Nat} (h : exec .reduce s = .fault (.unwrittenRead b a)) :
    b = .src ∧ s.reduceReads a ∧ s.readBuf .src a = none := by
  rcases reduceWith_cases params s with ⟨-, hr⟩ | ⟨f, hf, ⟨-, hr⟩ | ⟨-, ⟨luma, -, hr⟩ | ⟨a', hc, hr⟩⟩⟩ <;>
    cases hr.symm.trans h
  obtain ⟨i, hi, herr⟩ := collect_eq_error hc
  exact ⟨rfl, pixLuma_error hf (List.mem_range.1 hi) herr⟩

/-- Where the whole GRAY image is written, reading it does not fail. -/
theorem State.grayOk.collect_ne_error {s : State} (h : s.grayOk) (a : Nat) :
    collect s.gray.get (List.range (pixelCount s.grayDim)) ≠ .error a := by
  obtain ⟨-, hfull, -⟩ := h
  obtain ⟨luma, hc, -⟩ := collect_get_ok hfull
  rw [hc]
  nofun

theorem exec_tint_not_fault {s : State} (h : s.grayOk) (f : Fault) : exec .tint s ≠ .fault f := by
  intro hx
  rcases tintWith_cases params s with ⟨-, hr⟩ | ⟨-, ⟨luma, -, ⟨-, hr⟩ | ⟨-, hr⟩⟩ | ⟨a, hc, -⟩⟩
  · cases hr.symm.trans hx
  · cases hr.symm.trans hx
  · cases hr.symm.trans hx
  · exact h.collect_ne_error a hc

theorem exec_encode_not_fault {s : State} (h : s.grayOk) (f : Fault) : exec .encode s ≠ .fault f := by
  intro hx
  rcases execEncode_cases s with ⟨-, hr⟩ | ⟨-, -, hr⟩ | ⟨-, ⟨hw, hh⟩, ⟨luma, -, hr⟩ | ⟨a, hc, -⟩⟩
  · cases hr.symm.trans hx
  · cases hr.symm.trans hx
  · cases hr.symm.trans hx
  · exact h.collect_ne_error a (by rw [pixelCount, hw, hh]; exact hc)

/-- Settles O53: under the invariant GRAY holds its whole image, so of the commands only REDUCE can fault. -/
theorem onlyReduceAndReadsFault : Obligations.OnlyReduceAndReadsFault := by
  intro s b a hinv hf h
  rcases step_fault hf h with ⟨b', a', rest, hp, hv, hfault⟩ | ⟨i, rest, hp, hx⟩
  · cases hfault
    exact .inl ⟨rest, hp, hv⟩
  · have hgray := (hinv.withPending rest).grayOk
    cases i with
    | nop => cases hx
    | reduce =>
      obtain ⟨hb, hreads, hv⟩ := exec_reduce_fault hx
      exact .inr ⟨rest, hp, hb, hreads, hv⟩
    | tint => exact absurd hx (exec_tint_not_fault hgray _)
    | encode => exact absurd hx (exec_encode_not_fault hgray _)

end Sys2Proof.Machine

/-! PROOFS. The statements of 30_encoding.md: the opcode map both ways (R86) and the words that are illegal (R88). -/

namespace Sys2Proof.Machine

/-! ### Decode against encode (R86) -/

theorem decode_encode (i : Instr) : decode (encode i) = .ok i := by
  cases i with
  | nop | reduce | tint | encode => rfl

/-- A word names a command exactly when it is that command's own word. -/
theorem decode_eq_ok_iff (v : Word) (i : Instr) : decode v = .ok i ↔ v = encode i :=
  ⟨eq_encode_of_decode, fun h => h ▸ decode_encode i⟩

/-- Settles O18: a command has no operands to check, so the agreement holds of every command. -/
theorem decodeEncodeAgree : Obligations.DecodeEncodeAgree := fun v i _ => decode_eq_ok_iff v i

/-! ### The legal words are those up to 3 (R86, R88) -/

/-- The illegality of R88, by fields, in plain arithmetic. -/
theorem illegal_fields_iff (v : Word) : (v.extractLsb' 4 28 ≠ 0 ∨ 4 ≤ (v.extractLsb' 0 4).toNat) ↔ 4 ≤ v.toNat := by
  rw [Ne, rsvd_eq_zero_iff, op_toNat]
  omega

theorem exists_decode_of_le_three {v : Word} (h : v.toNat ≤ 3) : ∃ i, decode v = .ok i := by
  rcases decode_cases v with ⟨-, hd⟩ | ⟨-, hd⟩ | ⟨-, hd⟩ | ⟨-, hd⟩ | ⟨-, hop, -⟩ | ⟨hrsvd, -⟩
  · exact ⟨_, hd⟩
  · exact ⟨_, hd⟩
  · exact ⟨_, hd⟩
  · exact ⟨_, hd⟩
  · omega
  · omega

theorem exists_decode_iff (v : Word) : (∃ i, decode v = .ok i) ↔ v.toNat ≤ 3 := by
  refine ⟨fun ⟨i, hi⟩ => Nat.le_of_not_lt fun hge => ?_, exists_decode_of_le_three⟩
  obtain ⟨e, he⟩ := decode_of_ge_four hge
  cases hi.symm.trans he

theorem CmdWord.wf_iff (v : Word) : CmdWord.wf v = true ↔ v.toNat ≤ 3 := by
  simp only [CmdWord.wf, CmdWord.reservedZero, CmdWord.opNamed, Bool.and_eq_true, beq_iff_eq, decide_eq_true_eq]
  omega

/-- Settles O6: an illegal word is above the opcode map, and its step is the raise of IllegalCommand. -/
theorem illegalWordSetsErrOnly : Obligations.IllegalWordSetsErrOnly := by
  refine ⟨fun s v rest hf hp hill => ?_, fun v hrsvd hop => exists_decode_of_le_three ?_⟩
  · have hge : 4 ≤ v.toNat := (illegal_fields_iff v).1 hill
    rw [step_wr hf hp rfl (Nat.zero_le _), if_pos rfl, dispatch_of_ge_four hge]
    rfl
  · have hlegal : ¬ 4 ≤ v.toNat := fun hge =>
      ((illegal_fields_iff v).2 hge).elim (fun h => h hrsvd) (Nat.not_le.2 hop)
    omega

/-- Settles O17: the four words compute, and both readings of a legal word come to its value. -/
theorem opcodeMap : Obligations.OpcodeMap :=
  ⟨rfl, rfl, rfl, rfl, decode_encode, exists_decode_iff, CmdWord.wf_iff⟩

/-- Settles O19: the first four words are the encodings of the commands. -/
theorem sampleWordsDecode : Obligations.SampleWordsDecode :=
  ⟨decode_encode .nop, decode_encode .reduce, decode_encode .tint, decode_encode .encode, rfl, rfl⟩

end Sys2Proof.Machine

/-! PROOFS. The statements of 40_color_reducer.md: what REDUCE computes (R102 to R104), the images and formats it refuses (R100, R104,
R175), where it faults (R103), and what its image depends on (R105). -/

namespace Sys2Proof.Machine

/-! ### What a completed REDUCE leaves (R104) -/

theorem State.reduced_eq (s : State) (luma : List Byte) :
    s.reduced luma = { s with
      gray := (s.reduced luma).gray, grayDim := s.srcDim, status := { s.status with grayValid := true, err := 0 } } := rfl

theorem State.reduced_nil (s : State) :
    s.reduced [] = { s with grayDim := s.srcDim, status := { s.status with grayValid := true, err := 0 } } := by
  rw [reduced, Memory.splice_nil]
  rfl

/-- GRAY after a REDUCE: the new image from byte 0 upward, the old bytes above it. -/
theorem State.reduced_readBuf_gray (s : State) (luma : List Byte) (a : Nat) :
    (s.reduced luma).readBuf .gray a = if a < luma.length then luma[a]? else s.readBuf .gray a := by
  simp [readBuf, Memory.read_splice]

/-- Where every pixel has its luminosity, REDUCE completes and GRAY holds them; all formats in one. -/
theorem exec_reduce_of_pixLuma {s : State} {f : PixFormat} {c : Nat → Byte} (hf : PixFormat.ofCode s.srcFmt = some f)
    (hfit : pixelCount s.srcDim ≤ params.maxPixels) (hc : ∀ i, i < pixelCount s.srcDim → pixLuma params f s.src i = .ok (c i)) :
    ∃ t, exec .reduce s = .next t ∧
      t = { s with gray := t.gray, grayDim := s.srcDim, status := { s.status with grayValid := true, err := 0 } } ∧
      (∀ i, i < pixelCount s.srcDim → t.readBuf .gray i = some (c i)) ∧
      ∀ a, pixelCount s.srcDim ≤ a → t.readBuf .gray a = s.readBuf .gray a := by
  have hrun := reduceWith_of_collect hf ((params.fits_iff _).2 hfit) (collect_range_ok hc)
  refine ⟨_, hrun, s.reduced_eq _, fun i hi => ?_, fun a ha => ?_⟩
  · simp [State.reduced_readBuf_gray, hi]
  · rw [State.reduced_readBuf_gray, if_neg (by simpa using ha)]

/-! ### The bytes of a pixel (R100, R101, R103) -/

/-- A colour format fetches the pixel at its `bpp` bytes a pixel, whether the fourth is alpha or pad. -/
theorem PixFormat.ofCode_colour {c : Byte} {bpp : Nat} (h : c = 0x01 ∧ bpp = 3 ∨ c = 0x02 ∧ bpp = 4 ∨ c = 0x03 ∧ bpp = 4) :
    ∃ f, ofCode c = some f ∧ ∀ p m i, pixLuma p f m i = colourLuma p m (bpp * i) := by
  rcases h with ⟨rfl, rfl⟩ | ⟨rfl, rfl⟩ | ⟨rfl, rfl⟩
  · exact ⟨.bgr24, rfl, fun _ _ _ => rfl⟩
  · exact ⟨.bgra32, rfl, fun _ _ _ => rfl⟩
  · exact ⟨.bgr32, rfl, fun _ _ _ => rfl⟩

/-- The SRC bytes the fetch of pixel `i` reads (R103). -/
def PixFormat.reads (f : PixFormat) (i a : Nat) : Prop :=
  match f with
  | .gray8 => a = i
  | .bgr24 => ∃ k, k < 3 ∧ a = 3 * i + k
  | .bgra32 | .bgr32 => ∃ k, k < 3 ∧ a = 4 * i + k

/-- What REDUCE reads is what the fetches of its pixels read. -/
theorem State.reduceReads_iff {s : State} {f : PixFormat} (hf : PixFormat.ofCode s.srcFmt = some f) (a : Nat) :
    s.reduceReads a ↔ ∃ i, i < pixelCount s.srcDim ∧ f.reads i a := by
  have hcode := PixFormat.eq_code_of_ofCode hf
  cases f with
  | gray8 | bgr24 | bgra32 | bgr32 => simp [reduceReads, PixFormat.reads, hcode, PixFormat.code]

theorem colourLuma_congr {p : Params} {m n : Memory} {a : Nat} (h : ∀ k, k < 3 → m.read (a + k) = n.read (a + k)) :
    colourLuma p m a = colourLuma p n a := by
  have hget : ∀ k, k < 3 → m.get (a + k) = n.get (a + k) := fun k hk => by rw [Memory.get, Memory.get, h k hk]
  have h0 : m.get a = n.get a := hget 0 (by omega)
  rw [colourLuma, colourLuma, h0, hget 1 (by omega), hget 2 (by omega)]

/-- The fetch of a pixel depends only on the bytes it reads. -/
theorem pixLuma_congr {p : Params} {f : PixFormat} {m n : Memory} {i : Nat} (h : ∀ a, f.reads i a → m.read a = n.read a) :
    pixLuma p f m i = pixLuma p f n i := by
  cases f with
  | gray8 => rw [pixLuma, pixLuma, Memory.get, Memory.get, h i rfl]
  | bgr24 | bgra32 | bgr32 => exact colourLuma_congr fun k hk => h _ ⟨k, hk, rfl⟩

/-- The fetch of a pixel succeeds only where every byte it reads is written. -/
theorem pixLuma_written {p : Params} {f : PixFormat} {m : Memory} {i a : Nat} {v : Byte} (h : pixLuma p f m i = .ok v)
    (ha : f.reads i a) : m.read a ≠ none := by
  cases f with
  | gray8 =>
    obtain rfl : a = i := ha
    simp [Memory.get_eq_ok.1 h]
  | bgr24 | bgra32 | bgr32 =>
    obtain ⟨k, hk, rfl⟩ := ha
    exact colourLuma_written h k hk

/-! ### The image REDUCE computes (R102 to R104) -/

/-- Settles O21: the luminosity of a GRAY8 pixel is its SRC byte. -/
theorem reduceCopiesGrayImage : Obligations.ReduceCopiesGrayImage := by
  intro s hfmt hfit hsrc
  have hread : ∀ i, i < pixelCount s.srcDim → s.src.read i = some ((s.src.read i).getD 0) := fun i hi => by
    obtain ⟨v, hv : s.src.read i = some v⟩ := Option.isSome_iff_exists.1 (hsrc i hi)
    simp [hv]
  obtain ⟨t, hrun, hframe, hgray, habove⟩ := exec_reduce_of_pixLuma (f := .gray8) (by rw [hfmt]; rfl) hfit
    fun i hi => Memory.get_eq_ok.2 (hread i hi)
  exact ⟨t, hrun, hframe, fun i hi => (hgray i hi).trans (hread i hi).symm, habove⟩

/-- Settles O22: the luminosity of a colour pixel is LUMA_FN of its red, green and blue bytes. -/
theorem reduceConvertsColourImage : Obligations.ReduceConvertsColourImage := by
  intro s bpp b g r hfmt hfit hsrc
  obtain ⟨f, hf, hfetch⟩ := PixFormat.ofCode_colour hfmt
  refine exec_reduce_of_pixLuma hf hfit fun i hi => ?_
  obtain ⟨hb, hg, hr⟩ := hsrc i hi
  rw [hfetch]
  exact colourLuma_ok hb hg hr

/-- Settles O23, from O22 and the law LUMA_FN(v, v, v) = v. -/
theorem grayColoursKeepTheirValue : Obligations.GrayColoursKeepTheirValue := by
  intro s bpp c hfmt hfit hsrc
  obtain ⟨t, hrun, -, hgray, -⟩ := reduceConvertsColourImage s bpp c c c hfmt hfit fun i hi =>
    ⟨hsrc i 0 hi (by omega), hsrc i 1 hi (by omega), hsrc i 2 hi (by omega)⟩
  exact ⟨t, hrun, fun i hi => by rw [hgray i hi, params.lumaFn_gray]⟩

/-- Settles O26: over no pixels REDUCE reads nothing and stores the empty image. -/
theorem reduceOfEmptyImage : Obligations.ReduceOfEmptyImage := by
  intro s hfmt hempty
  obtain ⟨f, hf⟩ := PixFormat.ofCode_of_lt hfmt
  have hN : pixelCount s.srcDim = 0 := Nat.mul_eq_zero.2 hempty
  have hrun : reduceWith params s = .next (s.reduced []) :=
    reduceWith_of_collect hf (by rw [hN, Params.fits_zero]) (by rw [hN]; rfl)
  exact hrun.trans (congrArg _ s.reduced_nil)

/-- Settles O29: the weights add up to 256, so the rounded sum is at most 255. -/
theorem defaultLumaIsRoundedSum : Obligations.DefaultLumaIsRoundedSum := by
  intro r g b
  have hr := r.isLt
  have hg := g.isLt
  have hb := b.isLt
  have hle : (77 * r.toNat + 150 * g.toNat + 29 * b.toNat + 128) / 256 ≤ 255 := by omega
  change (BitVec.ofNat 8 (clamp (_ / 256) 0 255)).toNat = _
  rw [clamp_byte, Nat.min_eq_left hle, BitVec.toNat_ofNat, Nat.mod_eq_of_lt (Nat.lt_succ_of_le hle)]

/-! ### Refusals, faults and what the image depends on (R103 to R105, R175) -/

/-- Settles O24: the format check is the first. -/
theorem reduceRefusesFormat : Obligations.ReduceRefusesFormat := fun s hfmt =>
  (reduceWith_unsupported hfmt).trans (congrArg _ (s.raise_eq .unsupportedFormat))

/-- Settles O25: the capacity check follows the format check and comes before every read. -/
theorem reduceRefusesOversizeImage : Obligations.ReduceRefusesOversizeImage := fun s hfmt hsize =>
  (reduceWith_oversize hfmt hsize).trans (congrArg _ (s.raise_eq .capacityExceeded))

theorem PixFormat.lt_of_ofCode {c : Byte} {f : PixFormat} (h : ofCode c = some f) : c.toNat < 4 :=
  Nat.lt_of_not_le fun hge => by
    rw [ofCode_of_ge hge] at h
    cases h

/-- Past both checks, REDUCE faults where a byte it reads is unwritten. -/
theorem exec_reduce_faults_of_unwritten {s : State} {a : Nat} (hfmt : s.srcFmt.toNat < 4)
    (hfit : pixelCount s.srcDim ≤ params.maxPixels) (hreads : s.reduceReads a) (hnone : s.src.read a = none) :
    ∃ e, exec .reduce s = .fault (.unwrittenRead .src e) := by
  rcases reduceWith_cases params s with ⟨hf, -⟩ | ⟨f, hf, ⟨hover, -⟩ | ⟨-, ⟨luma, hc, -⟩ | ⟨e, -, hr⟩⟩⟩
  · exact absurd ((PixFormat.ofCode_eq_none_iff _).1 hf) (Nat.not_le.2 hfmt)
  · exact absurd ((params.fits_eq_false _).1 hover) (Nat.not_lt.2 hfit)
  · obtain ⟨i, hi, hpix⟩ := (State.reduceReads_iff hf a).1 hreads
    obtain ⟨v, hv, -⟩ := collect_range_getElem hc hi
    exact absurd hnone (pixLuma_written hv hpix)
  · exact ⟨e, hr⟩

/-- Settles O27: an unwritten byte stops the fetch of its pixel, and only such a byte does. -/
theorem reduceFaultsExactlyOnUnwrittenByte : Obligations.ReduceFaultsExactlyOnUnwrittenByte := by
  refine fun s hfmt hfit => ⟨⟨?_, ?_⟩, fun b a => exec_reduce_fault⟩
  · rintro ⟨a, hreads, hnone⟩
    exact exec_reduce_faults_of_unwritten hfmt hfit hreads hnone
  · rintro ⟨a, hfault⟩
    obtain ⟨-, hreads, hnone⟩ := exec_reduce_fault hfault
    exact ⟨a, hreads, hnone⟩

/-- Two states that agree on every byte REDUCE reads get the same luminosities. -/
theorem collect_pixLuma_congr {p : Params} {s t : State} {f : PixFormat} (hf : PixFormat.ofCode s.srcFmt = some f)
    (h : ∀ a, s.reduceReads a → s.src.read a = t.src.read a) :
    collect (pixLuma p f s.src) (List.range (pixelCount s.srcDim)) =
      collect (pixLuma p f t.src) (List.range (pixelCount s.srcDim)) :=
  collect_congr fun i hi => pixLuma_congr fun a ha => h a ((State.reduceReads_iff hf a).2 ⟨i, List.mem_range.1 hi, ha⟩)

/-- Settles O28: both checks and every fetch come out alike on the two states. -/
theorem reduceDependsOnlyOnBytesRead : Obligations.ReduceDependsOnlyOnBytesRead := by
  intro s t s' hfmt hdim hsrc hrun
  rcases reduceWith_cases params s with ⟨hf, hr⟩ | ⟨f, hf, ⟨hover, hr⟩ | ⟨hfit, ⟨luma, hc, hr⟩ | ⟨a, -, hr⟩⟩⟩ <;>
    cases hr.symm.trans hrun
  · have hge : 4 ≤ t.srcFmt.toNat := hfmt ▸ (PixFormat.ofCode_eq_none_iff _).1 hf
    exact ⟨_, reduceWith_unsupported hge, rfl, nofun⟩
  · have hlt : t.srcFmt.toNat < 4 := hfmt ▸ PixFormat.lt_of_ofCode hf
    exact ⟨_, reduceWith_oversize hlt (hdim ▸ (params.fits_eq_false _).1 hover), rfl, nofun⟩
  · have hct := hdim ▸ (collect_pixLuma_congr hf hsrc).symm.trans hc
    refine ⟨_, reduceWith_of_collect (hfmt ▸ hf) (hdim ▸ hfit) hct, rfl, fun _ => ⟨hdim.symm, fun i hi => ?_⟩⟩
    have hlen : i < luma.length := by rw [collect_length hc, List.length_range]; exact hi
    rw [State.reduced_readBuf_gray, State.reduced_readBuf_gray, if_pos hlen, if_pos hlen]

end Sys2Proof.Machine

/-! PROOFS. The statements of 41_tint_shader.md: what TINT writes with and without a tint (R120 to R123), the presence flag (R120), the
state it refuses, and why neither it nor ENCODE can fault (R122, R174). -/

namespace Sys2Proof.Machine

/-! ### What a completed TINT leaves (R122) -/

theorem State.tinted_eq (s : State) (fmt : Byte) (bytes : List Byte) :
    s.tinted fmt bytes = { s with
      tout := (s.tinted fmt bytes).tout, toutFmt := fmt, toutDim := s.grayDim,
      status := { s.status with toutValid := true, err := 0 } } := rfl

/-- TOUT after a TINT: the new bytes from 0 upward, the old bytes above them. -/
theorem State.tinted_readBuf_tout (s : State) (fmt : Byte) (bytes : List Byte) (a : Nat) :
    (s.tinted fmt bytes).readBuf .tout a = if a < bytes.length then bytes[a]? else s.readBuf .tout a := by
  simp [readBuf, Memory.read_splice]

/-- Over a written image TINT completes, from the GRAY bytes in their order; A alone says which of its two writes it makes (R120). -/
theorem exec_tint_of_written {s : State} (hg : s.status.grayValid = true)
    (hgray : ∀ i, i < pixelCount s.grayDim → (s.readBuf .gray i).isSome = true) :
    ∃ luma : List Byte, luma.length = pixelCount s.grayDim ∧ (∀ i, i < pixelCount s.grayDim → luma[i]? = s.readBuf .gray i) ∧
      exec .tint s = if tintA s.tint = 0 then .next (s.tinted PixFormat.gray8Code luma)
        else .next (s.tinted PixFormat.bgr32Code (luma.flatMap (shadePixel params s.tint))) := by
  obtain ⟨luma, hc, hlen, hluma⟩ := collect_get_ok hgray
  exact ⟨luma, hlen, hluma, tintWith_of_collect hg hc⟩

/-! ### Pass-through (R120, R122) -/

/-- Settles O30: with A = 0 the bytes stored are the GRAY bytes read. -/
theorem tintPassesThrough : Obligations.TintPassesThrough := by
  intro s hg ha hgray
  obtain ⟨luma, hlen, hluma, hrun⟩ := exec_tint_of_written hg hgray
  rw [if_pos (tintA_eq_zero.2 ha)] at hrun
  refine ⟨_, hrun, s.tinted_eq .., fun i hi => ?_, fun a hle => ?_⟩
  · rw [State.tinted_readBuf_tout, if_pos (hlen ▸ hi)]
    exact hluma i hi
  · rw [State.tinted_readBuf_tout, if_neg (hlen ▸ Nat.not_lt.2 hle)]

/-! ### Shading (R121 to R123) -/

theorem shadePixel_length (p : Params) (tint : Word) (c : Byte) : (shadePixel p tint c).length = 4 := rfl

theorem shade_eq (p : Params) (c t : Byte) : shade p c t = BitVec.ofNat 8 (min (p.tintMul c t) 255) := by
  rw [shade, clamp_byte]

/-- With A > 0 TINT completes and byte k of pixel i in TOUT is byte k of the shaded pixel; the pixels fill TOUT up to 4 N. -/
theorem exec_tint_shades {s : State} {c : Nat → Byte} (hg : s.status.grayValid = true) (ha : 0 < s.tint.toNat / 2 ^ 24)
    (hgray : ∀ i, i < pixelCount s.grayDim → s.readBuf .gray i = some (c i)) :
    ∃ t, exec .tint s = .next t ∧
      t = { s with tout := t.tout, toutFmt := 0x03, toutDim := s.grayDim,
                   status := { s.status with toutValid := true, err := 0 } } ∧
      (∀ i k, i < pixelCount s.grayDim → k < 4 → t.readBuf .tout (4 * i + k) = (shadePixel params s.tint (c i))[k]?) ∧
      ∀ a, 4 * pixelCount s.grayDim ≤ a → t.readBuf .tout a = s.readBuf .tout a := by
  obtain ⟨luma, hlen, hluma, hrun⟩ := exec_tint_of_written hg fun i hi => by rw [hgray i hi]; rfl
  rw [if_neg (mt tintA_eq_zero.1 ha.ne')] at hrun
  have hbytes : (luma.flatMap (shadePixel params s.tint)).length = 4 * pixelCount s.grayDim := by
    rw [flatMap_four_length (shadePixel_length params s.tint), hlen]
  refine ⟨_, hrun, s.tinted_eq .., fun i k hi hk => ?_, fun a hle => ?_⟩
  · rw [State.tinted_readBuf_tout, if_pos (by omega)]
    exact flatMap_four_getElem (shadePixel_length params s.tint) ((hluma i hi).trans (hgray i hi)) hk
  · rw [State.tinted_readBuf_tout, if_neg (by omega)]

/-- Settles O31: the bytes of a shaded pixel one by one. -/
theorem tintShadesEachPixel : Obligations.TintShadesEachPixel := by
  intro s c hg ha hgray
  obtain ⟨t, hrun, hframe, hpixel, habove⟩ := exec_tint_shades hg ha hgray
  refine ⟨t, hrun, hframe, fun i hi => ⟨?_, ?_, ?_, ?_⟩, habove⟩
  · exact (hpixel i 0 hi (by decide)).trans (congrArg some (shade_eq ..))
  · exact (hpixel i 1 hi (by decide)).trans (congrArg some (shade_eq ..))
  · exact (hpixel i 2 hi (by decide)).trans (congrArg some (shade_eq ..))
  · exact hpixel i 3 hi (by decide)

/-- A shaded pixel depends on the low 24 bits of TINT only, since A is no component. -/
theorem shadePixel_congr (p : Params) {t w : Word} (h : t.toNat % 2 ^ 24 = w.toNat % 2 ^ 24) : shadePixel p t = shadePixel p w := by
  have hr : tintR t = tintR w := BitVec.eq_of_toNat_eq (by rw [tintR_toNat, tintR_toNat]; omega)
  have hg : tintG t = tintG w := BitVec.eq_of_toNat_eq (by rw [tintG_toNat, tintG_toNat]; omega)
  have hb : tintB t = tintB w := BitVec.eq_of_toNat_eq (by rw [tintB_toNat, tintB_toNat]; omega)
  funext c
  rw [shadePixel, shadePixel, hr, hg, hb]

theorem shade_full (p : Params) (c : Byte) : shade p c 255 = c := by
  rw [shade_eq, p.tintMul_one, Nat.min_eq_left (Nat.le_of_lt_succ c.isLt), BitVec.ofNat_toNat, BitVec.setWidth_eq]

theorem shade_zero (p : Params) (c : Byte) : shade p c 0 = 0 := by
  rw [shade_eq, p.tintMul_zero]
  rfl

theorem shadePixel_full (p : Params) {t : Word} (h : t.toNat % 2 ^ 24 = 0xFFFFFF) (c : Byte) :
    shadePixel p t c = [c, c, c, p.toutPad] := by
  rw [shadePixel_congr p (w := 0xFFFFFF) h]
  change [shade p c 255, shade p c 255, shade p c 255, _] = _
  rw [shade_full]

theorem shadePixel_zero (p : Params) {t : Word} (h : t.toNat % 2 ^ 24 = 0) (c : Byte) :
    shadePixel p t c = [0, 0, 0, p.toutPad] := by
  rw [shadePixel_congr p (w := 0) h]
  change [shade p c 0, shade p c 0, shade p c 0, _] = _
  rw [shade_zero]

/-- The three colour bytes of a pixel that has one value in all of them. -/
theorem getElem_three_colours (v pad : Byte) {k : Nat} (hk : k < 3) : [v, v, v, pad][k]? = some v := by
  match k, hk with
  | 0, _ | 1, _ | 2, _ => rfl

/-- Settles O32, from the two laws of TINT_MUL (R121). -/
theorem tintFullAndZero : Obligations.TintFullAndZero := by
  intro s c hg ha hgray
  obtain ⟨t, hrun, -, hpixel, -⟩ := exec_tint_shades hg ha hgray
  refine ⟨t, hrun, fun hfull i k hi hk => ?_, fun hzero i k hi hk => ?_⟩
  · rw [hpixel i k hi (by omega), shadePixel_full params hfull, getElem_three_colours _ _ hk]
  · rw [hpixel i k hi (by omega), shadePixel_zero params hzero, getElem_three_colours _ _ hk]

/-! ### The presence flag (R120) -/

/-- Settles O33: beyond the test of A for 0, TINT is read only by the shading, which does not see A. -/
theorem tintPresenceFlagOnly : Obligations.TintPresenceFlagOnly := by
  intro s u w hs hw hlow hrun
  rcases tintWith_cases params s with ⟨hg, hr⟩ | ⟨hg, ⟨luma, hc, ⟨ha, -⟩ | ⟨-, hr⟩⟩ | ⟨a, -, hr⟩⟩
  · cases hr.symm.trans hrun
    exact tintWith_invalid (s := { s with tint := w }) hg
  · exact absurd (tintA_eq_zero.1 ha) hs.ne'
  · cases hr.symm.trans hrun
    refine (tintWith_of_collect (s := { s with tint := w }) hg hc).trans ((if_neg (mt tintA_eq_zero.1 hw.ne')).trans ?_)
    rw [shadePixel_congr params hlow]
    rfl
  · cases hr.symm.trans hrun

/-! ### What TINT refuses, and that it cannot fault (R122, R142, R174, R175) -/

/-- Settles O34: the check of GRAY_VALID is TINT's only one. -/
theorem tintNeedsReducedImage : Obligations.TintNeedsReducedImage := fun s hg =>
  (tintWith_invalid hg).trans (congrArg _ (s.raise_eq .inputNotValid))

/-- A command that does not fault completes: no command is refused. -/
theorem exec_next_of_not_fault {i : Instr} {s : State} (h : ∀ f, exec i s ≠ .fault f) : ∃ t, exec i s = .next t :=
  (exec_next_or_fault i s).resolve_right fun ⟨_, _, hfault⟩ => h _ hfault

/-- Settles O52: under the invariant GRAY holds its whole image, so neither command reads an unwritten byte. -/
theorem tintAndEncodeCannotFault : Obligations.TintAndEncodeCannotFault := fun _ hinv =>
  ⟨exec_next_of_not_fault (exec_tint_not_fault hinv.grayOk), exec_next_of_not_fault (exec_encode_not_fault hinv.grayOk)⟩

end Sys2Proof.Machine

/-! PROOFS. The statements of 42_frame_encoder.md: the packing of a group (R141), where ENCODE puts each bit of the image (R142, R143),
the gray levels the planes hold (R144), what ENCODE refuses (R142, R175), and what its frame depends on (R142, R145). -/

namespace Sys2Proof.Machine

/-! ### The gray level is all that a plane sees (R141, R144) -/

/-- The 4-bit gray level of a GRAY byte (R144). -/
def grayLevel (v : Byte) : Byte := v >>> 4

@[simp] theorem grayLevel_toNat (v : Byte) : (grayLevel v).toNat = v.toNat / 16 := by
  rw [grayLevel, BitVec.toNat_ushiftRight, Nat.shiftRight_eq_div_pow]

theorem map_grayLevel_eq_iff (s t : List Byte) :
    s.map grayLevel = t.map grayLevel ↔ s.map (fun v => v.toNat / 16) = t.map (fun v => v.toNat / 16) := by
  have hmap : ∀ l : List Byte, l.map (fun v => v.toNat / 16) = (l.map grayLevel).map BitVec.toNat := fun l => by
    simp [Function.comp_def]
  have hinj : Function.Injective (BitVec.toNat (w := 8)) := fun _ _ => BitVec.eq_of_toNat_eq
  rw [hmap, hmap, (List.map_injective_iff.2 hinj).eq_iff]

theorem bitOf_grayLevel (v : Byte) (p : Nat) : bitOf (grayLevel v) p = bitOf v (4 + p) := by
  rw [bitOf, bitOf, grayLevel, BitVec.shiftRight_add]

theorem packGroup_map_grayLevel (s : List Byte) (p : Nat) : packGroup (s.map grayLevel) p = packGroup s (4 + p) := by
  simp only [packGroup, List.foldr_map, bitOf_grayLevel]

theorem packGroup_congr {s t : List Byte} (h : s.map grayLevel = t.map grayLevel) (p : Nat) :
    packGroup s (4 + p) = packGroup t (4 + p) := by
  rw [← packGroup_map_grayLevel, h, packGroup_map_grayLevel]

theorem groups_map (f : Byte → Byte) : ∀ l : List Byte, groups (l.map f) = (groups l).map (List.map f)
  | _ :: _ :: _ :: _ :: _ :: _ :: _ :: _ :: rest => congrArg (List.cons _) (groups_map f rest)
  | [] | [_] | [_, _] | [_, _, _] | [_, _, _, _] | [_, _, _, _, _] | [_, _, _, _, _, _] | [_, _, _, _, _, _, _] => rfl

theorem plane_eq_grayLevel (luma : List Byte) (p : Nat) :
    plane luma p = (groups (luma.map grayLevel)).map (fun s => packGroup s p) := by
  simp only [plane, groups_map, List.map_map, Function.comp_def, packGroup_map_grayLevel]

theorem payload_congr {l m : List Byte} (h : l.map grayLevel = m.map grayLevel) : payload l = payload m := by
  simp only [payload, plane_eq_grayLevel, h]

/-- Settles O35: the bits of a packed byte, and that it is packed from the gray levels of the samples. -/
theorem packGroupClosedForm : Obligations.PackGroupClosedForm :=
  ⟨fun s b _ _ => packGroup_getLsbD s b, fun s t p h => packGroup_congr ((map_grayLevel_eq_iff s t).2 h) p⟩

/-! ### What a completed ENCODE leaves (R142, R143) -/

theorem State.encoded_eq (s : State) (luma : List Byte) :
    s.encoded luma = { s with txbuf := (s.encoded luma).txbuf, status := { s.status with frameValid := true, err := 0 } } := rfl

/-- Bit 4+p of pixel (x, y) at its place in plane p of TXBUF. -/
theorem State.encoded_readBuf_bit (s : State) {luma : List Byte} (hlen : luma.length = 4096) {p y x : Nat} (hp : p < 4)
    (hy : y < 32) (hx : x < 128) :
    ∃ v, (s.encoded luma).readBuf .txbuf (4 + 512 * p + 16 * y + x / 8) = some v ∧
      v.getLsbD (x % 8) = (luma[128 * y + x]?.getD 0).getLsbD (4 + p) := by
  obtain ⟨v, hv, hbit⟩ := payload_getLsbD hlen hp hy hx
  refine ⟨v, ?_, hbit⟩
  rw [Nat.add_assoc 4, Nat.add_assoc 4, encoded_readBuf_payload s hlen (by omega), hv]

theorem State.encoded_readBuf_outside (s : State) {luma : List Byte} (hlen : luma.length = 4096) {a : Nat}
    (ha : a < 4 ∨ 2052 ≤ a) : (s.encoded luma).readBuf .txbuf a = s.readBuf .txbuf a := by
  rcases ha with hheader | habove
  · exact (if_pos hheader).trans (if_pos hheader).symm
  · have hpay := payload_length luma hlen
    rw [readBuf_payload _ (by omega), readBuf_payload _ (by omega), encoded_txbuf, Memory.read_splice_of_ge (by omega)]

/-- Settles O36: the bits lie where the payload puts them, and the payload is all of TXBUF that ENCODE writes. -/
theorem encodeClosedForm : Obligations.EncodeClosedForm := by
  intro s l hg hd hgray
  have hlen : ((List.range 4096).map l).length = 4096 := by simp
  refine ⟨_, execEncode_native hg hd hgray, s.encoded_eq _, fun p y x hp hy hx => ?_, fun a => s.encoded_readBuf_outside hlen⟩
  obtain ⟨v, hv, hbit⟩ := s.encoded_readBuf_bit hlen hp hy hx
  refine ⟨v, hv, hbit.trans ?_⟩
  rw [List.getElem?_map, List.getElem?_range (by omega)]
  rfl

/-! ### The planes hold the gray levels (R144) -/

/-- ENCODE of a native image completes only from the GRAY bytes in their order. -/
theorem exec_encode_next {s t : State} (hg : s.status.grayValid = true) (hd : s.grayDim = 0x00200080)
    (h : exec .encode s = .next t) :
    ∃ luma : List Byte, luma.length = 4096 ∧ (∀ i, i < 4096 → luma[i]? = s.readBuf .gray i) ∧ t = s.encoded luma := by
  rcases execEncode_cases s with ⟨hg', -⟩ | ⟨-, hd', -⟩ | ⟨-, -, ⟨luma, hc, hr⟩ | ⟨a, -, hr⟩⟩
  · rw [hg] at hg'; cases hg'
  · exact absurd ((native_dims_iff _).2 hd) hd'
  · cases hr.symm.trans h
    refine ⟨luma, by rw [collect_length hc, List.length_range], fun i hi => ?_, rfl⟩
    obtain ⟨v, hget, hv⟩ := collect_range_getElem hc hi
    exact hv.trans (Memory.get_eq_ok.1 hget).symm
  · cases hr.symm.trans h

theorem toNat_div_two_pow_mod_two (v : Byte) (k : Nat) : v.toNat / 2 ^ k % 2 = (v.getLsbD k).toNat := by
  rw [← Nat.toNat_testBit, BitVec.testBit_toNat]

/-- The top four bits of a byte, weighted, are its upper half. -/
theorem sum_upper_bits (v : Byte) :
    v.toNat / 2 ^ 4 % 2 + 2 * (v.toNat / 2 ^ 5 % 2) + 4 * (v.toNat / 2 ^ 6 % 2) + 8 * (v.toNat / 2 ^ 7 % 2) = v.toNat / 16 := by
  have := v.isLt
  omega

/-- Settles O37: bit x mod 8 of plane p's byte is bit 4+p of the pixel's GRAY byte. -/
theorem encodeLevelsRecovered : Obligations.EncodeLevelsRecovered := by
  intro s t x y v f hg hd hrun hx hy hv hf
  obtain ⟨luma, hlen, hluma, rfl⟩ := exec_encode_next hg hd hrun
  have hpixel : luma[128 * y + x]? = some v := (hluma _ (by omega)).trans hv
  have hplane : ∀ p, p < 4 → (f p).toNat / 2 ^ (x % 8) % 2 = v.toNat / 2 ^ (4 + p) % 2 := fun p hp => by
    obtain ⟨u, hu, hbit⟩ := s.encoded_readBuf_bit hlen hp hy hx
    rw [hf p hp, Option.some.injEq] at hu
    rw [toNat_div_two_pow_mod_two, toNat_div_two_pow_mod_two, hu, hbit, hpixel, Option.getD_some]
  rw [hplane 0 (by omega), hplane 1 (by omega), hplane 2 (by omega), hplane 3 (by omega)]
  exact sum_upper_bits v

/-! ### What ENCODE refuses (R142, R175) -/

/-- Settles O38: the check of GRAY_VALID comes before the check of GRAY_DIM. -/
theorem encodeRefusesMissingOrMissized : Obligations.EncodeRefusesMissingOrMissized := fun s =>
  ⟨fun hg => (execEncode_invalid hg).trans (congrArg _ (s.raise_eq .inputNotValid)),
    fun hg hd => (execEncode_mismatch hg hd).trans (congrArg _ (s.raise_eq .dimensionMismatch))⟩

/-! ### What the frame depends on (R142, R145) -/

/-- Settles O39: the two images have the same gray levels, and the payload is packed from those. -/
theorem encodeIgnoresLowNibble : Obligations.EncodeIgnoresLowNibble := by
  intro s t g hg hd hgray hrun
  choose! v w hv hw hlevel using hgray
  have hlevels : ((List.range 4096).map v).map grayLevel = ((List.range 4096).map w).map grayLevel := by
    rw [map_grayLevel_eq_iff, List.map_map, List.map_map]
    exact List.map_congr_left fun i hi => hlevel i (List.mem_range.1 hi)
  cases (execEncode_native hg hd hv).symm.trans hrun
  refine (execEncode_native (s := { s with gray := g }) hg hd hw).trans ?_
  rw [State.encoded, State.encoded, payload_congr hlevels]

/-- Settles O40: each answer of ENCODE is decided by GRAY_VALID, GRAY_DIM and GRAY, and writes TXBUF and STATUS only. -/
theorem encodeReadsGrayOnly : Obligations.EncodeReadsGrayOnly := by
  intro s t fmt tfmt dim tint tdim src tout hrun
  rcases execEncode_cases s with ⟨hg, hr⟩ | ⟨hg, hd, hr⟩ | ⟨hg, hd, ⟨luma, hc, hr⟩ | ⟨a, -, hr⟩⟩ <;> cases hr.symm.trans hrun
  · exact execEncode_invalid hg
  · exact execEncode_mismatch hg fun e => hd ((native_dims_iff _).2 e)
  · exact execEncode_of_collect hg hd hc

end Sys2Proof.Machine

/-! PROOFS. The statement of 43_control.md: NOP clears ERR alone (R161), and its word is the only one with OP = 0 that is legal (R88). -/

namespace Sys2Proof.Machine

/-- Settles O20: a nonzero RSVD puts the word above the opcode map, so OP = 0 does not make it NOP's. -/
theorem nopClearsErrOnly : Obligations.NopClearsErrOnly := by
  refine ⟨execNop_eq, decode_encode .nop, fun v _ hrsvd => ?_⟩
  have hge : 4 ≤ v.toNat := (illegal_fields_iff v).1 (.inl hrsvd)
  exact ⟨decode_of_ge_four hge, fun s => (dispatch_of_ge_four hge s).trans (congrArg _ (s.raise_eq .illegalCommand))⟩

end Sys2Proof.Machine

/-! PROOFS. The statement of 60_exceptions.md: no command reads ERR (R170). -/

namespace Sys2Proof.Machine

/-- A raise overwrites ERR, so it forgets the value ERR held before it. -/
theorem State.raise_of_err (s : State) (v : BitVec 4) (e : ErrCode) :
    State.raise { s with status := { s.status with err := v } } e = s.raise e := rfl

/-- Settles O44: the two states agree once an error is raised in both, and a raise does not show to a command. -/
theorem errNeverReadByCommand : Obligations.ErrNeverReadByCommand := by
  intro i s v
  calc exec i { s with status := { s.status with err := v } }
    _ = exec i (State.raise { s with status := { s.status with err := v } } .illegalCommand) := (exec_raise i _ _).symm
    _ = exec i (s.raise .illegalCommand) := by rw [State.raise_of_err]
    _ = exec i s := exec_raise i s _

end Sys2Proof.Machine

/-! PROOFS. The statements of 70_reset_and_hazards.md: what reset leaves in every register and buffer, and that the reset state meets the
invariant (R201). -/

namespace Sys2Proof.Machine

/-! ### What reset leaves (R201) -/

/-- Reading at the offset of a register of the map gives that register's value (R22, R61). -/
theorem State.readReg_offset (p : Params) (s : State) (r : Reg) : s.readReg p r.offset = s.regValue p r := by
  cases r <;> rfl

/-- The registers below NATIVE_DIM hold the block's state, and reset clears them; the constants lie above (R22, R201). -/
theorem State.reset_readReg_offset (p : Params) (r : Reg) (h : r.offset < Reg.nativeDim.offset) :
    State.reset.readReg p r.offset = 0 := by
  rw [readReg_offset]
  cases r with
  | nativeDim | txbufLen | maxPix => exact absurd h (by decide)
  | _ => rfl

/-- Reset leaves every byte of every buffer unwritten, but for TXBUF's hard-wired header (R43, R201). -/
theorem State.reset_readBuf (b : Buffer) {a : Nat} (h : b = .txbuf → 4 ≤ a) : State.reset.readBuf b a = none := by
  cases b with
  | src | gray | tout => exact Memory.read_nil a
  | txbuf => exact (State.reset.readBuf_payload (h rfl)).trans (Memory.read_nil a)

/-- Settles O1: the registers of the block's state are cleared, the constants are read as on every machine, and only the header of TXBUF
is written. -/
theorem resetLeavesSpecValues : Obligations.ResetLeavesSpecValues := by
  obtain ⟨hb0, hb1, hb2, hb3⟩ := headerReadsConstant State.reset
  have zero := State.reset_readReg_offset params
  exact ⟨zero .status (by decide), zero .srcFmt (by decide), zero .srcDim (by decide), zero .tint (by decide),
    zero .grayDim (by decide), zero .toutFmt (by decide), zero .toutDim (by decide),
    State.readReg_offset params State.reset .nativeDim, State.readReg_offset params State.reset .txbufLen,
    State.readReg_maxPix params State.reset,
    fun _ => State.reset_readBuf .src nofun, fun _ => State.reset_readBuf .gray nofun, fun _ => State.reset_readBuf .tout nofun,
    fun _ h => State.reset_readBuf .txbuf fun _ => h, hb0, hb1, hb2, hb3, rfl⟩

/-! ### The invariant at reset (R201) -/

theorem Memory.within_nil (lo : Nat) (ok : Nat → Bool) : Memory.within [] lo ok := nofun

theorem Memory.filled_zero (m : Memory) : m.filled 0 := nofun

theorem State.reset_inBounds : State.reset.inBounds :=
  ⟨Memory.within_nil _ _, Memory.within_nil _ _, Memory.within_nil _ _, Memory.within_nil _ _⟩

/-- GRAY_DIM describes the empty image, so no byte of GRAY is owed. -/
theorem State.reset_grayOk : State.reset.grayOk :=
  ⟨fun _ => ⟨rfl, rfl⟩, Memory.filled_zero _, params.fits_zero⟩

/-- TOUT_FMT is GRAY8 and TOUT_DIM describes the empty image, so no byte of TOUT is owed. -/
theorem State.reset_toutOk : State.reset.toutOk :=
  ⟨fun _ => ⟨rfl, rfl, rfl⟩, .inl ⟨rfl, Memory.filled_zero _⟩, params.fits_zero⟩

/-- Settles O50: the buffers are empty, ERR is 0 and no VALID bit is set. -/
theorem resetMeetsInvariant : Obligations.ResetMeetsInvariant where
  canonical := State.reset_wf
  inBounds := State.reset_inBounds
  errLegal := ErrCode.zero_le_greatest
  grayOk := State.reset_grayOk
  toutOk := State.reset_toutOk
  frameOk := ⟨fun _ => rfl, nofun⟩
  orderOk := ⟨nofun, nofun⟩

end Sys2Proof.Machine

/-! PROOFS. The model's own choices in the step (00_scope.md R15): waiting with nothing pending (R202, log 5), and the command placed for
the next step (log 6), which a recorded fault keeps from running (R13, log 2). -/

namespace Sys2Proof.Machine

/-- Settles O15: with no fault to answer and no transaction to perform, `stepOnce` is left with its waiting branch. -/
theorem waitsWithoutTransaction : Obligations.WaitsWithoutTransaction := by
  intro s hf hp
  rw [step, stepOnce, hf, hp]

/-! ### The placed command (log 6) -/

@[simp] theorem State.withFetchWord_faultRecord (s : State) (nbits w : Nat) : (s.withFetchWord nbits w).faultRecord = s.faultRecord := rfl

/-- Placing a 32-bit word puts the host's own CMD write of it before the pending transactions: the word is not cut. -/
theorem State.withFetchWord_pending (s : State) (v : Word) : (s.withFetchWord 32 v.toNat).pending = .wr 0 v :: s.pending := by
  have hcut : v.toNat % 2 ^ 32 = v.toNat := Nat.mod_eq_of_lt v.isLt
  rw [withFetchWord, placeCommand, hcut]
  rfl

/-- Performing the placed write gives the state it was placed in back. -/
theorem State.withFetchWord_withPending (s : State) (nbits w : Nat) : (s.withFetchWord nbits w).withPending s.pending = s := rfl

/-- Settles O16: the placed word is a CMD write, so the step runs what it decodes to (O5), and it decodes to the command encoded. -/
theorem placedCommandRunsNext : Obligations.PlacedCommandRunsNext := by
  intro s i
  have hplaced : (s.withFetchWord 32 (encode i).toNat).faultRecord = s.faultRecord := s.withFetchWord_faultRecord 32 _
  refine ⟨fun hf => ?runs, fun f hrec => ⟨hplaced.trans hrec, step_of_recorded (hplaced.trans hrec)⟩⟩
  case runs =>
    calc step (s.withFetchWord 32 (encode i).toNat)
      _ = exec i ((s.withFetchWord 32 (encode i).toNat).withPending s.pending) :=
        cmdWriteRunsDecodedCommand _ _ i s.pending (hplaced.trans hf) (s.withFetchWord_pending (encode i)) (decode_encode i)
      _ = exec i s := by rw [State.withFetchWord_withPending]

end Sys2Proof.Machine
